-- ==== Sys2Proof/Word.lean ====
section
/-! DEFINITION. The widths of the spec's values (rules R7 and R10 of spec/00_scope.md): names for bit vectors, and nothing
else. Every value is unsigned (R10). -/

namespace Sys2Proof

/-- A memory cell, a general register, a timer, an immediate `nn` (R7, R51). -/
abbrev Byte := BitVec 8

/-- `pc`, `ir`, a stack entry, an instruction word (R7). -/
abbrev Word := BitVec 16

/-- A 4-bit field of a word: a register index `x` or `y`, the row count `n`, a logical key (R51, R107). -/
abbrev Nibble := BitVec 4

/-- A 12-bit address field `nnn` (R51). -/
abbrev Addr := BitVec 12

end Sys2Proof
end

