-- ==== Sys2Proof/Syntax.lean ====
section
/-! DEFINITION. The 34 instructions of the opcode map (rule R53 of spec/30_encoding.md; spec/opcode_table.json), one
constructor per row, in the table's order. A field holds exactly the bits the format gives it (R51), so an operand out of
range cannot be written (R18, R33). -/

namespace Sys2Proof

/-- One constructor per row of the opcode table; the operands are the fields of the row's format (R51, R52). -/
inductive Instr where
  /-- `00E0` CLS (R103). -/
  | cls
  /-- `00EE` RET (R71). -/
  | ret
  /-- `1nnn` JP addr (R72). -/
  | jp (nnn : Addr)
  /-- `2nnn` CALL addr (R73). -/
  | call (nnn : Addr)
  /-- `3xnn` SE Vx, byte (R74). -/
  | seByte (x : Nibble) (nn : Byte)
  /-- `4xnn` SNE Vx, byte (R75). -/
  | sneByte (x : Nibble) (nn : Byte)
  /-- `5xy0` SE Vx, Vy (R76). -/
  | seReg (x y : Nibble)
  /-- `6xnn` LD Vx, byte (R81). -/
  | ldByte (x : Nibble) (nn : Byte)
  /-- `7xnn` ADD Vx, byte (R82). -/
  | addByte (x : Nibble) (nn : Byte)
  /-- `8xy0` LD Vx, Vy (R85). -/
  | ldReg (x y : Nibble)
  /-- `8xy1` OR Vx, Vy (R86). -/
  | orReg (x y : Nibble)
  /-- `8xy2` AND Vx, Vy (R87). -/
  | andReg (x y : Nibble)
  /-- `8xy3` XOR Vx, Vy (R88). -/
  | xorReg (x y : Nibble)
  /-- `8xy4` ADD Vx, Vy (R89). -/
  | addReg (x y : Nibble)
  /-- `8xy5` SUB Vx, Vy (R90). -/
  | subReg (x y : Nibble)
  /-- `8xy6` SHR Vx, Vy (R91). -/
  | shr (x y : Nibble)
  /-- `8xy7` SUBN Vx, Vy (R92). -/
  | subnReg (x y : Nibble)
  /-- `8xyE` SHL Vx, Vy (R93). -/
  | shl (x y : Nibble)
  /-- `9xy0` SNE Vx, Vy (R77). -/
  | sneReg (x y : Nibble)
  /-- `Annn` LD I, addr (R95). -/
  | ldI (nnn : Addr)
  /-- `Bnnn` JP V0, addr (R78); the Modern register index is `nnn[11:8]`, a part of the operand (R52). -/
  | jpOffset (nnn : Addr)
  /-- `Cxnn` RND Vx, byte (R94). -/
  | rnd (x : Nibble) (nn : Byte)
  /-- `Dxyn` DRW Vx, Vy, nibble (R104). -/
  | drw (x y n : Nibble)
  /-- `Ex9E` SKP Vx (R108). -/
  | skp (x : Nibble)
  /-- `ExA1` SKNP Vx (R109). -/
  | sknp (x : Nibble)
  /-- `Fx07` LD Vx, DT (R111). -/
  | ldRegDelay (x : Nibble)
  /-- `Fx0A` LD Vx, K (R110). -/
  | ldKey (x : Nibble)
  /-- `Fx15` LD DT, Vx (R112). -/
  | ldDelay (x : Nibble)
  /-- `Fx18` LD ST, Vx (R113). -/
  | ldSound (x : Nibble)
  /-- `Fx1E` ADD I, Vx (R96). -/
  | addI (x : Nibble)
  /-- `Fx29` LD F, Vx (R97). -/
  | ldFont (x : Nibble)
  /-- `Fx33` LD B, Vx (R98). -/
  | ldBcd (x : Nibble)
  /-- `Fx55` LD [I], Vx (R99). -/
  | storeRegs (x : Nibble)
  /-- `Fx65` LD Vx, [I] (R100). -/
  | loadRegs (x : Nibble)
deriving DecidableEq, Repr

end Sys2Proof
end

