-- ==== Sys2Proof/WellFormed.lean ====
section
/-! DEFINITION. What it is for a word, and for an instruction, to be well formed: the word matches a row of the opcode table
(rule R60(a) of spec/30_encoding.md); the instruction's own row is in that table. The operands of an `Instr` need no check:
each is a bit vector of its field's width (R51), and every value of every field is an instruction (R52, R59); the check that can
fail is the one on words (entry 15). -/

namespace Sys2Proof

/-- A row of spec/opcode_table.json: the fixed bits, as a mask, and their value. -/
structure OpcodeRow where
  mask  : Word
  value : Word
deriving DecidableEq, Repr

/-- The row selects the word (R60: `(w & mask) = match`). -/
def OpcodeRow.selects (r : OpcodeRow) (w : Word) : Bool := w &&& r.mask = r.value

/-- The row of spec/opcode_table.json an instruction belongs to. -/
def Instr.row : Instr → OpcodeRow
  | .cls            => ⟨0xFFFF, 0x00E0⟩
  | .ret            => ⟨0xFFFF, 0x00EE⟩
  | .jp _           => ⟨0xF000, 0x1000⟩
  | .call _         => ⟨0xF000, 0x2000⟩
  | .seByte _ _     => ⟨0xF000, 0x3000⟩
  | .sneByte _ _    => ⟨0xF000, 0x4000⟩
  | .seReg _ _      => ⟨0xF00F, 0x5000⟩
  | .ldByte _ _     => ⟨0xF000, 0x6000⟩
  | .addByte _ _    => ⟨0xF000, 0x7000⟩
  | .ldReg _ _      => ⟨0xF00F, 0x8000⟩
  | .orReg _ _      => ⟨0xF00F, 0x8001⟩
  | .andReg _ _     => ⟨0xF00F, 0x8002⟩
  | .xorReg _ _     => ⟨0xF00F, 0x8003⟩
  | .addReg _ _     => ⟨0xF00F, 0x8004⟩
  | .subReg _ _     => ⟨0xF00F, 0x8005⟩
  | .shr _ _        => ⟨0xF00F, 0x8006⟩
  | .subnReg _ _    => ⟨0xF00F, 0x8007⟩
  | .shl _ _        => ⟨0xF00F, 0x800E⟩
  | .sneReg _ _     => ⟨0xF00F, 0x9000⟩
  | .ldI _          => ⟨0xF000, 0xA000⟩
  | .jpOffset _     => ⟨0xF000, 0xB000⟩
  | .rnd _ _        => ⟨0xF000, 0xC000⟩
  | .drw _ _ _      => ⟨0xF000, 0xD000⟩
  | .skp _          => ⟨0xF0FF, 0xE09E⟩
  | .sknp _         => ⟨0xF0FF, 0xE0A1⟩
  | .ldRegDelay _   => ⟨0xF0FF, 0xF007⟩
  | .ldKey _        => ⟨0xF0FF, 0xF00A⟩
  | .ldDelay _      => ⟨0xF0FF, 0xF015⟩
  | .ldSound _      => ⟨0xF0FF, 0xF018⟩
  | .addI _         => ⟨0xF0FF, 0xF01E⟩
  | .ldFont _       => ⟨0xF0FF, 0xF029⟩
  | .ldBcd _        => ⟨0xF0FF, 0xF033⟩
  | .storeRegs _    => ⟨0xF0FF, 0xF055⟩
  | .loadRegs _     => ⟨0xF0FF, 0xF065⟩

/-- The opcode table: the 34 rows of spec/opcode_table.json, in its order. -/
def opcodeRows : List OpcodeRow :=
  [⟨0xFFFF, 0x00E0⟩, ⟨0xFFFF, 0x00EE⟩, ⟨0xF000, 0x1000⟩, ⟨0xF000, 0x2000⟩, ⟨0xF000, 0x3000⟩, ⟨0xF000, 0x4000⟩] ++
  [⟨0xF00F, 0x5000⟩, ⟨0xF000, 0x6000⟩, ⟨0xF000, 0x7000⟩] ++
  [⟨0xF00F, 0x8000⟩, ⟨0xF00F, 0x8001⟩, ⟨0xF00F, 0x8002⟩, ⟨0xF00F, 0x8003⟩, ⟨0xF00F, 0x8004⟩] ++
  [⟨0xF00F, 0x8005⟩, ⟨0xF00F, 0x8006⟩, ⟨0xF00F, 0x8007⟩, ⟨0xF00F, 0x800E⟩] ++
  [⟨0xF00F, 0x9000⟩, ⟨0xF000, 0xA000⟩, ⟨0xF000, 0xB000⟩, ⟨0xF000, 0xC000⟩, ⟨0xF000, 0xD000⟩] ++
  [⟨0xF0FF, 0xE09E⟩, ⟨0xF0FF, 0xE0A1⟩] ++
  [⟨0xF0FF, 0xF007⟩, ⟨0xF0FF, 0xF00A⟩, ⟨0xF0FF, 0xF015⟩, ⟨0xF0FF, 0xF018⟩, ⟨0xF0FF, 0xF01E⟩] ++
  [⟨0xF0FF, 0xF029⟩, ⟨0xF0FF, 0xF033⟩, ⟨0xF0FF, 0xF055⟩, ⟨0xF0FF, 0xF065⟩]

/-- A word is well formed when some row of the opcode table selects it (R60(a)); the others are unrecognized (R60(b)). -/
def wellFormedWord (w : Word) : Bool := opcodeRows.any (·.selects w)

/-- An instruction is well formed when its row is a row of the opcode table. -/
def Instr.wellFormed (i : Instr) : Bool := opcodeRows.contains i.row

end Sys2Proof
end

