-- ==== Sys2Proof/Decode.lean ====
section
/-! DEFINITION. From bytes and words to instructions (rules R50 to R60 of spec/30_encoding.md) and back. The decoder is total and
rejects by name; the encoder is written from the formats of R51. -/

namespace Sys2Proof

/-- Why bytes are no instruction. -/
inductive Reject where
  /-- The word is in no row of the opcode table (R60(b)). -/
  | unrecognizedEncoding (w : Word)
  /-- Fewer than the two bytes of a word (R50). -/
  | truncated
deriving DecidableEq, Repr

/-- `op = w[15:12]`, the family (R13, R51). -/
def opField (w : Word) : Nibble := w.extractLsb' 12 4

/-- `x = w[11:8]` (R13, R51). -/
def xField (w : Word) : Nibble := w.extractLsb' 8 4

/-- `y = w[7:4]` (R13, R51). -/
def yField (w : Word) : Nibble := w.extractLsb' 4 4

/-- `n = w[3:0]` (R13, R51). -/
def nField (w : Word) : Nibble := w.extractLsb' 0 4

/-- `nn = w[7:0]` (R13, R51). -/
def nnField (w : Word) : Byte := w.extractLsb' 0 8

/-- `nnn = w[11:0]` (R13, R51). -/
def nnnField (w : Word) : Addr := w.extractLsb' 0 12

/-- The byte at the lower address is bits 15..8 (R38, R50). -/
def bigEndian (hi lo : Byte) : Word := hi ++ lo

/-- Family 0 (R54). -/
def decodeFamily0 (w : Word) : Option Instr :=
  if w = 0x00E0 then some .cls else if w = 0x00EE then some .ret else none

/-- Family 5 (R55). -/
def decodeFamily5 (x y n : Nibble) : Option Instr :=
  if n = 0 then some (.seReg x y) else none

/-- Family 8 (R56, R83). PRESUMED by the spec itself: the values 1, 2, 3, 6 and 7 (entry 12). -/
def decodeFamily8 (x y n : Nibble) : Option Instr :=
  if n = 0x0 then some (.ldReg x y) else if n = 0x1 then some (.orReg x y)
  else if n = 0x2 then some (.andReg x y) else if n = 0x3 then some (.xorReg x y)
  else if n = 0x4 then some (.addReg x y) else if n = 0x5 then some (.subReg x y)
  else if n = 0x6 then some (.shr x y) else if n = 0x7 then some (.subnReg x y)
  else if n = 0xE then some (.shl x y) else none

/-- Family 9 (R55). -/
def decodeFamily9 (x y n : Nibble) : Option Instr :=
  if n = 0 then some (.sneReg x y) else none

/-- Family E (R57). -/
def decodeFamilyE (x : Nibble) (nn : Byte) : Option Instr :=
  if nn = 0x9E then some (.skp x) else if nn = 0xA1 then some (.sknp x) else none

/-- Family F (R58). -/
def decodeFamilyF (x : Nibble) (nn : Byte) : Option Instr :=
  if nn = 0x07 then some (.ldRegDelay x) else if nn = 0x0A then some (.ldKey x)
  else if nn = 0x15 then some (.ldDelay x) else if nn = 0x18 then some (.ldSound x)
  else if nn = 0x1E then some (.addI x) else if nn = 0x29 then some (.ldFont x)
  else if nn = 0x33 then some (.ldBcd x) else if nn = 0x55 then some (.storeRegs x)
  else if nn = 0x65 then some (.loadRegs x) else none

/-- Dispatch on the family (R53, R65); the families without a sub-operation decode every word (R59). -/
def decodeFamily (w : Word) : Option Instr :=
  match opField w with
  | 0x0#4 => decodeFamily0 w
  | 0x1#4 => some (.jp (nnnField w))
  | 0x2#4 => some (.call (nnnField w))
  | 0x3#4 => some (.seByte (xField w) (nnField w))
  | 0x4#4 => some (.sneByte (xField w) (nnField w))
  | 0x5#4 => decodeFamily5 (xField w) (yField w) (nField w)
  | 0x6#4 => some (.ldByte (xField w) (nnField w))
  | 0x7#4 => some (.addByte (xField w) (nnField w))
  | 0x8#4 => decodeFamily8 (xField w) (yField w) (nField w)
  | 0x9#4 => decodeFamily9 (xField w) (yField w) (nField w)
  | 0xA#4 => some (.ldI (nnnField w))
  | 0xB#4 => some (.jpOffset (nnnField w))
  | 0xC#4 => some (.rnd (xField w) (nnField w))
  | 0xD#4 => some (.drw (xField w) (yField w) (nField w))
  | 0xE#4 => decodeFamilyE (xField w) (nnField w)
  | _     => decodeFamilyF (xField w) (nnField w)

/-- Decode one word (R53 to R60): an instruction, or a rejection by name. -/
def decodeWord (w : Word) : Except Reject Instr :=
  match decodeFamily w with
  | some i => .ok i
  | none   => .error (.unrecognizedEncoding w)

/-- Decode the first instruction of a list of bytes, and give the bytes after it (R38, R50). -/
def decode : List Byte → Except Reject (Instr × List Byte)
  | hi :: lo :: rest =>
    match decodeWord (bigEndian hi lo) with
    | .ok i    => .ok (i, rest)
    | .error r => .error r
  | _ => .error .truncated

/-- Format `NNN`, from its fields, the high bits first (R51). -/
def formatNNN (op : Nibble) (nnn : Addr) : Word := op ++ nnn

/-- Format `XNN`, and `XSS` with the sub-operation in `nn` (R51). -/
def formatXNN (op x : Nibble) (nn : Byte) : Word := op ++ x ++ nn

/-- Format `XYN`, and `XYS` with the sub-operation in `n` (R51). -/
def formatXYN (op x y n : Nibble) : Word := op ++ x ++ y ++ n

/-- The word of an instruction, from the encoding line of its rule (R71 to R113). -/
def encode : Instr → Word
  | .cls            => 0x00E0
  | .ret            => 0x00EE
  | .jp nnn         => formatNNN 0x1 nnn
  | .call nnn       => formatNNN 0x2 nnn
  | .seByte x nn    => formatXNN 0x3 x nn
  | .sneByte x nn   => formatXNN 0x4 x nn
  | .seReg x y      => formatXYN 0x5 x y 0x0
  | .ldByte x nn    => formatXNN 0x6 x nn
  | .addByte x nn   => formatXNN 0x7 x nn
  | .ldReg x y      => formatXYN 0x8 x y 0x0
  | .orReg x y      => formatXYN 0x8 x y 0x1
  | .andReg x y     => formatXYN 0x8 x y 0x2
  | .xorReg x y     => formatXYN 0x8 x y 0x3
  | .addReg x y     => formatXYN 0x8 x y 0x4
  | .subReg x y     => formatXYN 0x8 x y 0x5
  | .shr x y        => formatXYN 0x8 x y 0x6
  | .subnReg x y    => formatXYN 0x8 x y 0x7
  | .shl x y        => formatXYN 0x8 x y 0xE
  | .sneReg x y     => formatXYN 0x9 x y 0x0
  | .ldI nnn        => formatNNN 0xA nnn
  | .jpOffset nnn   => formatNNN 0xB nnn
  | .rnd x nn       => formatXNN 0xC x nn
  | .drw x y n      => formatXYN 0xD x y n
  | .skp x          => formatXNN 0xE x 0x9E
  | .sknp x         => formatXNN 0xE x 0xA1
  | .ldRegDelay x   => formatXNN 0xF x 0x07
  | .ldKey x        => formatXNN 0xF x 0x0A
  | .ldDelay x      => formatXNN 0xF x 0x15
  | .ldSound x      => formatXNN 0xF x 0x18
  | .addI x         => formatXNN 0xF x 0x1E
  | .ldFont x       => formatXNN 0xF x 0x29
  | .ldBcd x        => formatXNN 0xF x 0x33
  | .storeRegs x    => formatXNN 0xF x 0x55
  | .loadRegs x     => formatXNN 0xF x 0x65

/-- The two bytes of a word as the hardware stores them, the high byte at the lower address (R38). -/
def wordBytes (w : Word) : List Byte := [w.extractLsb' 8 8, w.extractLsb' 0 8]

/-- The bytes of an instruction in memory. -/
def encodeBytes (i : Instr) : List Byte := wordBytes (encode i)

/-- The word whose low `nbits` bits are those of `w`, the bits above zero, numbered as spec/opcode_table.json numbers them (bit 0
the least significant of the one word every instruction has, R50). -/
def tableWord (nbits w : Nat) : Word := BitVec.ofNat 16 (w % 2 ^ nbits)

/-- What the decoder reads from a word given by its bits in the opcode table's numbering. -/
def decodeTableWord (nbits w : Nat) : Option Instr :=
  match decode (wordBytes (tableWord nbits w)) with
  | .ok (i, _) => some i
  | .error _   => none

end Sys2Proof
end

