-- ==== Sys2Proof/Config.lean ====
section
/-! DEFINITION. The parameters of rule R6 (spec/00_scope.md), those the spec fixes as named constants and those a model takes
as arguments, and the free values of the host's answers (R9; spec/93_implementation_defined.md items 7 to 9). -/

namespace Sys2Proof

/-- `compat`: the two readings of `8xy6`, `8xyE` and `Bnnn` (R6; D2). -/
inductive Compat where
  | legacy
  | modern
deriving DecidableEq, Repr

/-- `fbMode`: the framebuffer's size (R6, R24; D3). -/
inductive FbMode where
  | original64x32
  | extended128x64
deriving DecidableEq, Repr

/-- `FX1E_VF_POLICY`: what `Fx1E` does to `VF` when the sum does not overflow (R6, R96; D19). -/
inductive Fx1eVfPolicy where
  | clearOnNoOverflow
  | preserveOnNoOverflow
deriving DecidableEq, Repr

/-- The parameters a model takes as arguments (R6): fixed for the lifetime of a state instance. `defaultFont` is the parameter
`DEFAULT_FONT`: 80 bytes, `Config.glyphCount` glyphs of `Config.glyphHeight` (R6), whose expected value is `Config.standardFont`
(R144). -/
structure Config where
  compat       : Compat
  fbMode       : FbMode
  fx1eVfPolicy : Fx1eVfPolicy
  defaultFont  : Vector Byte 80
deriving DecidableEq, Repr

/-- W, the framebuffer's width (R24). -/
def FbMode.width : FbMode → Nat
  | .original64x32 => 64
  | .extended128x64 => 128

/-- H, the framebuffer's height (R24). -/
def FbMode.height : FbMode → Nat
  | .original64x32 => 32
  | .extended128x64 => 64

/-- `MEM_SIZE` (R6). -/
abbrev Config.memSize : Nat := 4096

/-- `PROGRAM_BASE` (R6). -/
abbrev Config.programBase : Nat := 0x200

/-- `FONT_BASE` (R6). -/
abbrev Config.fontBase : Nat := 0x50

/-- `GLYPH_HEIGHT` (R6). -/
abbrev Config.glyphHeight : Nat := 5

/-- `GLYPH_COUNT` (R6). -/
abbrev Config.glyphCount : Nat := 16

/-- `NUM_REGS` (R6). -/
abbrev Config.numRegs : Nat := 16

/-- `STACK_CAPACITY` (R6). -/
abbrev Config.stackCapacity : Nat := 1000

/-- The expected value of `DEFAULT_FONT`, glyph by glyph (the table of R144, spec/70_reset_and_hazards.md). PRESUMED: the spec
itself marks these bytes as general knowledge (entry 11). -/
def Config.standardFont : Vector Byte 80 := .mk (List.toArray (
  [0xF0, 0x90, 0x90, 0x90, 0xF0] ++ [0x20, 0x60, 0x20, 0x20, 0x70] ++
  [0xF0, 0x10, 0xF0, 0x80, 0xF0] ++ [0xF0, 0x10, 0xF0, 0x10, 0xF0] ++
  [0x90, 0x90, 0xF0, 0x10, 0x10] ++ [0xF0, 0x80, 0xF0, 0x10, 0xF0] ++
  [0xF0, 0x80, 0xF0, 0x90, 0xF0] ++ [0xF0, 0x10, 0x20, 0x40, 0x40] ++
  [0xF0, 0x90, 0xF0, 0x90, 0xF0] ++ [0xF0, 0x90, 0xF0, 0x10, 0xF0] ++
  [0xF0, 0x90, 0xF0, 0x90, 0x90] ++ [0xE0, 0x90, 0xE0, 0x90, 0xE0] ++
  [0xF0, 0x80, 0x80, 0x80, 0xF0] ++ [0xE0, 0x90, 0x90, 0x90, 0xE0] ++
  [0xF0, 0x80, 0xF0, 0x80, 0xF0] ++ [0xF0, 0x80, 0xF0, 0x80, 0x80])) (by decide)

/-- The parameters of `State.reset`: the defaults of the spec's test vectors (spec/95_test_vectors.md). DESIGN CHOICE for
`compat` and `fbMode`, which the spec leaves OPEN (entry 1). -/
def Config.standard : Config where
  compat := .modern
  fbMode := .original64x32
  fx1eVfPolicy := .clearOnNoOverflow
  defaultFont := Config.standardFont

/-- The answer to the `k`-th draw, where that draw is a `RandomByte()` query (R9, R94; D24): a free value, of which nothing is
known (entry 3). -/
opaque Config.randomByte (k : Nat) : Byte

/-- The answer to the `k`-th draw, where that draw is a `KeyDown(key)` query (R9, R108; D24): a free value (entry 3). -/
opaque Config.keyDown (k : Nat) (key : Nibble) : Bool

/-- The answer to the `k`-th draw, where that draw is a `PressedKey()` query: none, or a logical key (R9, R110; D23): a free
value (entry 3). -/
opaque Config.pressedKey (k : Nat) : Option Nibble

end Sys2Proof
end

