-- ==== Sys2Proof/Machine/State.lean ====
section
/-! DEFINITION. The machine's state as plain data (rules R17 to R28 of spec/10_state.md), the reasons a step can stop, and the
state after reset (`Init`, R139 of spec/70_reset_and_hazards.md). -/

namespace Sys2Proof.Machine

/-- Whether a data access reads or writes (R40). -/
inductive AccessKind where
  | read
  | write
deriving DecidableEq, Repr

/-- The fault reasons of R120 (spec/60_exceptions.md). Each is SAFE: the spec follows the run no further, so nothing can be
proved of what an implementation might do there (R16). -/
inductive Fault where
  /-- F1: raised by the fetch when `pc > 0xFFE` (R63); it records that `pc`. Safe. -/
  | fetchOutOfRange (pc : Word)
  /-- F2: raised by `Dxyn` and `Fx65` (read), `Fx33` and `Fx55` (write) when an address exceeds 0xFFF (R40); it records the
  first such address. Safe. -/
  | memoryOutOfRange (a : Nat) (kind : AccessKind)
  /-- F3: raised by `Ex9E` and `ExA1` when `V[x] > 0xF` (R107); it records `V[x]`. Safe. -/
  | keyIndexOutOfRange (v : Byte)
deriving DecidableEq, Repr

/-- The host transactions the spec gives no meaning (R12: "the model has no step for it"). Each is SAFE: nothing is claimed. -/
inductive Refusal where
  /-- An instruction with no meaning in the model; raised by no arm of this model. Safe. -/
  | notModelled (mnemonic : String)
  /-- Any transaction but `Init` on a state whose fault mark is set (R70, R121); raised by `step` and the transactions. Safe. -/
  | faulted
  /-- `LoadFont` with a table over 432 bytes (R143); raised by `loadFont`. Safe. -/
  | loadFontTooLarge
  /-- A `Step` issued while `halted` is true, which the host must not do (R132); raised by `hostIssue` alone, never by `step`. Safe. -/
  | stepWhileHalted
deriving DecidableEq, Repr

/-- The error kinds of R115 (spec/60_exceptions.md). -/
inductive ErrKind where
  /-- An absent state reference: cannot arise here, kept for the document's taxonomy (R119). -/
  | invalidArgument
  | capacityExceeded
  | unrecognizedEncoding
  | stackEmpty
deriving DecidableEq, Repr

/-- What a completed transaction gives back (R115). -/
inductive Result where
  | ok
  | err (kind : ErrKind)
deriving DecidableEq, Repr

/-- Memory as (address, byte) pairs; an address not listed holds 0x00, its value after `Init` (R139). -/
abbrev Memory := List Host.Cell

/-- The call stack as (index, entry) pairs; an index not listed holds 0x0000 (R22, R139). -/
abbrev Stack := List (Nat × Word)

/-- The framebuffer as (position, pixel) pairs, the position of `fb(cx, cy)` being `cy * 128 + cx`; a position not listed is off
(R24, R139). -/
abbrev Framebuffer := List (Nat × BitVec 1)

/-- The state record of R17, and three fields of the model's own: `config` (the parameters, R6 and R28; entry 1), `result` (what
the last transaction gave back, R115; entry 2), `draws` (how many answers of the host have been drawn, R9; entry 3). -/
structure State where
  config     : Config
  mem        : Memory
  v          : Vector Byte 16
  pc         : Word
  ir         : Word
  stack      : Stack
  sp         : Fin 1001
  fb         : Framebuffer
  delayTimer : Byte
  soundTimer : Byte
  halted     : Bool
  fault      : Option Fault
  result     : Result
  draws      : Nat
deriving DecidableEq, Repr

/-- The state `Init` creates, for given parameters (R139). -/
def State.init (cfg : Config) : State where
  config := cfg
  mem := []
  v := Vector.replicate 16 0
  pc := 0x200
  ir := 0
  stack := []
  sp := 0
  fb := []
  delayTimer := 0
  soundTimer := 0
  halted := true
  fault := none
  result := .ok
  draws := 0

/-- The machine right after reset: `Init` with the standard parameters (R17, R139; entry 1). -/
def State.reset : State := State.init Config.standard

end Sys2Proof.Machine
end

