-- ==== Sys2Proof/Machine/Ops.lean ====
section
/-! DEFINITION. The named operations over the state: cells in canonical form, memory (R35 to R41 of spec/20_memory.md),
registers, the call stack, the framebuffer, the ends of a Step (R66 of spec/40_execution_cycle.md, R115 to R121 of
spec/60_exceptions.md) and the fetch (R62 to R64). -/

namespace Sys2Proof.Machine

/-! ## Cells: a sparse array in one canonical form -/

/-- The value at a key: an unlisted key holds 0 (R139; entry 5). -/
def Cells.read {w : Nat} : List (Nat × BitVec w) → Nat → BitVec w
  | [], _ => 0
  | c :: rest, a => if c.1 = a then c.2 else Cells.read rest a

/-- The list without the key. -/
def Cells.erase {w : Nat} (l : List (Nat × BitVec w)) (a : Nat) : List (Nat × BitVec w) :=
  l.filter (fun c => c.1 != a)

/-- The list with a new entry, before the first greater key. -/
def Cells.insert {w : Nat} : List (Nat × BitVec w) → Nat → BitVec w → List (Nat × BitVec w)
  | [], a, b => [(a, b)]
  | c :: rest, a, b => if a < c.1 then (a, b) :: c :: rest else c :: Cells.insert rest a b

/-- Write a value at a key; writing 0 removes the entry, so equal arrays are equal lists. -/
def Cells.write {w : Nat} (l : List (Nat × BitVec w)) (a : Nat) (b : BitVec w) : List (Nat × BitVec w) :=
  if b = 0 then Cells.erase l a else Cells.insert (Cells.erase l a) a b

/-- The canonical form: every key is allowed, no value is 0, and the keys rise strictly. -/
def Cells.wf {w : Nat} (allowed : Nat → Bool) : List (Nat × BitVec w) → Bool
  | [] => true
  | c :: rest => allowed c.1 && c.2 != 0 && rest.all (fun d => c.1 < d.1) && Cells.wf allowed rest

/-- Memory in canonical form, every address in 0x000..0xFFF (R35). -/
def Memory.wf (m : Memory) : Bool := Cells.wf (fun a => a < Config.memSize) m

/-- The stack in canonical form, every index in 0..999 (R22), every entry a value a call can push (R73: at most 0x1000). -/
def Stack.wf (st : Stack) : Bool :=
  Cells.wf (fun i => i < Config.stackCapacity) st && st.all (fun c => c.2.toNat ≤ 0x1000)

/-- The framebuffer in canonical form, every position inside W x H (R24). -/
def Framebuffer.wf (mode : FbMode) (fb : Framebuffer) : Bool :=
  Cells.wf (fun p => p % 128 < mode.width && p / 128 < mode.height) fb

/-! ## Registers -/

/-- `V[x]` (R11, R18). -/
def State.reg (s : State) (x : Nibble) : Byte := s.v[x.toNat]

/-- `V[x] <- b` (R11). -/
def State.setReg (s : State) (x : Nibble) (b : Byte) : State := { s with v := s.v.set x.toNat b }

/-- `V[F] <- b`, the flag (R19). -/
def State.setFlag (s : State) (b : Byte) : State := s.setReg 0xF b

/-- `V[i] <- bytes[0]`, `V[i+1] <- bytes[1]`, and so on (the loop of R100). -/
def State.setRegs (s : State) (i : Nat) : List Byte → State
  | [] => s
  | b :: rest => (s.setReg (BitVec.ofNat 4 i) b).setRegs (i + 1) rest

/-- The bytes `V[0]` to `V[x]` (the loop of R99). -/
def State.regsUpTo (s : State) (x : Nibble) : List Byte := s.v.toList.take (x.toNat + 1)

/-- `pc <- a` (R11). -/
def State.setPc (s : State) (a : Word) : State := { s with pc := a }

/-- `ir <- a` (R11). -/
def State.setIr (s : State) (a : Word) : State := { s with ir := a }

/-- `delayTimer <- b` (R25). -/
def State.setDelay (s : State) (b : Byte) : State := { s with delayTimer := b }

/-- `soundTimer <- b` (R25). -/
def State.setSound (s : State) (b : Byte) : State := { s with soundTimer := b }

/-- One more answer has been drawn from the host (R9). -/
def State.countDraw (s : State) : State := { s with draws := s.draws + 1 }

/-! ## Memory -/

/-- The byte at an address (R38, R43). -/
def State.byteAt (s : State) (a : Nat) : Byte := Cells.read s.mem a

/-- The byte at an address, replaced. -/
def State.setByte (s : State) (a : Nat) (b : Byte) : State := { s with mem := Cells.write s.mem a b }

/-- Consecutive bytes replaced, from an address on, in rising order. -/
def State.storeBytes (s : State) (a : Nat) : List Byte → State
  | [] => s
  | b :: rest => (s.setByte a b).storeBytes (a + 1) rest

/-- Consecutive bytes, from an address on. -/
def State.bytesFrom (s : State) (a : Nat) : Nat → List Byte
  | 0 => []
  | n + 1 => s.byteAt a :: s.bytesFrom (a + 1) n

/-- The range check of an access to `n` consecutive bytes: the first address above 0xFFF, if there is one (R40, R41). -/
def checkRange (a n : Nat) (kind : AccessKind) : Option Fault :=
  if 0 < n ∧ 0xFFF < a + n - 1 then some (.memoryOutOfRange (max a 0x1000) kind) else none

/-- `MemRead` of `n` consecutive bytes: every address is checked before any is read (R41). -/
def State.memRead (s : State) (a n : Nat) : Except Fault (List Byte) :=
  match checkRange a n .read with
  | some f => .error f
  | none   => .ok (s.bytesFrom a n)

/-- `MemWrite` of consecutive bytes: every address is checked before any is written (R41). -/
def State.memWrite (s : State) (a : Nat) (bytes : List Byte) : Except Fault State :=
  match checkRange a bytes.length .write with
  | some f => .error f
  | none   => .ok (s.storeBytes a bytes)

/-! ## The call stack -/

/-- `stack[i]` (R22). -/
def State.stackAt (s : State) (i : Nat) : Word := Cells.read s.stack i

/-- `stack[sp] <- a`, `sp <- sp + 1`, for a stack that is not full (R22, R73). -/
def State.push (s : State) (a : Word) (h : s.sp.val < Config.stackCapacity) : State :=
  { s with stack := Cells.write s.stack s.sp.val a, sp := ⟨s.sp.val + 1, Nat.succ_lt_succ h⟩ }

/-- `sp <- sp - 1`, `pc <- stack[sp]` (R22, R71). -/
def State.pop (s : State) : State :=
  { s with sp := ⟨s.sp.val - 1, Nat.lt_of_le_of_lt (Nat.sub_le _ _) s.sp.isLt⟩, pc := s.stackAt (s.sp.val - 1) }

/-! ## The framebuffer -/

/-- W (R6, R24). -/
def State.width (s : State) : Nat := s.config.fbMode.width

/-- H (R6, R24). -/
def State.height (s : State) : Nat := s.config.fbMode.height

/-- Where the pixel of column `cx` and row `cy` is kept. DESIGN CHOICE (entry 5). -/
def pixelKey (cx cy : Nat) : Nat := cy * 128 + cx

/-- The pixel of column `cx` and row `cy` of a framebuffer. -/
def Framebuffer.pixel (fb : Framebuffer) (cx cy : Nat) : BitVec 1 := Cells.read fb (pixelKey cx cy)

/-- `fb(cx, cy) <- 1 - fb(cx, cy)` (R104). -/
def Framebuffer.toggle (fb : Framebuffer) (cx cy : Nat) : Framebuffer :=
  Cells.write fb (pixelKey cx cy) (1 - Framebuffer.pixel fb cx cy)

/-- `fb(cx, cy)` (R11, R24). -/
def State.pixel (s : State) (cx cy : Nat) : BitVec 1 := Framebuffer.pixel s.fb cx cy

/-- The framebuffer replaced. -/
def State.setFb (s : State) (fb : Framebuffer) : State := { s with fb := fb }

/-! ## The ends of a transaction -/

/-- What a transaction gives back is recorded (R115). -/
def State.setResult (s : State) (r : Result) : State := { s with result := r }

/-- `return Ok` (R12, R66). -/
def State.complete (s : State) : Host.Outcome State Fault Refusal := .next (s.setResult .ok)

/-- `return Err(kind)`: the state keeps what has been written (R12, R116). -/
def State.fail (s : State) (kind : ErrKind) : Host.Outcome State Fault Refusal := .next (s.setResult (.err kind))

/-- `raise Fault(f)` as the state it leaves: the state before the Step, with the fault mark set (R12, R67, R120).
DEDUCED: it stands beside the interface's fault, which carries no state (entry 4). -/
def State.markFault (s : State) (f : Fault) : State := { s with fault := some f }

/-! ## The program counter and the fetch -/

/-- The fetch advance (R64). -/
def State.advance (s : State) : State :=
  if s.pc.toNat + 2 ≤ Config.memSize then s.setPc (s.pc + 2) else s

/-- `if c: pc <- pc + 2` (R74 to R77, R108, R109). -/
def State.skipIf (s : State) (c : Bool) : State := if c then s.setPc (s.pc + 2) else s

/-- The word at an address: big-endian (R38, R63). -/
def State.wordAt (s : State) (a : Nat) : Word := bigEndian (s.byteAt a) (s.byteAt (a + 1))

/-- What a Step has found before it runs an instruction. -/
inductive Fetched where
  /-- The fault mark is set: there is no Step (R70; entry 6). -/
  | refused (r : Refusal)
  /-- The fetch is out of range (R63). -/
  | fault (f : Fault)
  /-- The Step ends here: an unrecognized encoding (R60). -/
  | ended (o : Host.Outcome State Fault Refusal)
  /-- An instruction, and the state it runs in, with `pc` at the post-fetch value (R65). -/
  | run (i : Instr) (s : State)

/-- Fetch, advance and decode, in the order of R69: fault mark, fetch range, decode (R62). -/
def State.fetch (s : State) : Fetched :=
  match s.fault with
  | some _ => .refused .faulted
  | none =>
    if 0xFFE < s.pc.toNat then .fault (.fetchOutOfRange s.pc)
    else
      match decodeWord (s.wordAt s.pc.toNat) with
      | .error _ => .ended (s.advance.fail .unrecognizedEncoding)
      | .ok i    => .run i s.advance

/-- The bytes of a word placed where the next Step fetches (the state a program load leaves; entry 10). -/
def State.placeWord (s : State) (w : Word) : State :=
  let s' := if 0xFFE < s.pc.toNat then s.setPc (BitVec.ofNat 16 Config.programBase) else s
  { s'.storeBytes s'.pc.toNat (wordBytes w) with fault := none }

end Sys2Proof.Machine
end

