-- ==== Sys2Proof/Machine/Flags.lean ====
section
/-! DEFINITION. The flag computations: the value each flag-writing instruction gives `VF` (R19 of spec/10_state.md). -/

namespace Sys2Proof.Machine

/-- A condition as a flag: 1 or 0 (R19). -/
def flagOf (c : Bool) : Byte := if c then 1 else 0

/-- `8xy4`: 1 iff `a + b > 255` (R89). -/
def carryFlag (a b : Byte) : Byte := flagOf (255 < a.toNat + b.toNat)

/-- `8xy5` and `8xy7`: 1 iff `a >= b`, no borrow in `a - b` (R90, R92; D15). -/
def noBorrowFlag (a b : Byte) : Byte := flagOf (b.toNat ≤ a.toNat)

/-- `8xy6`: bit 0 of the shifted operand (R91). -/
def shiftRightFlag (src : Byte) : Byte := flagOf (src.getLsbD 0)

/-- `8xyE`: bit 7 of the shifted operand (R93). -/
def shiftLeftFlag (src : Byte) : Byte := flagOf (src.getLsbD 7)

/-- `Fx1E`: 1 when the new `ir` exceeds 0xFFF; else 0, or the old `VF` under `PreserveOnNoOverflow` (R96; D19). -/
def indexOverflowFlag (policy : Fx1eVfPolicy) (r : Word) (old : Byte) : Byte :=
  if 0xFFF < r.toNat then 1
  else
    match policy with
    | .clearOnNoOverflow    => 0
    | .preserveOnNoOverflow => old

/-- A result into `V[x]`, and then a flag into `VF`: with `x` = F the flag remains (R84; D14). -/
def State.setResultAndFlag (s : State) (x : Nibble) (r flag : Byte) : State := (s.setReg x r).setFlag flag

end Sys2Proof.Machine
end

