-- ==== Sys2Proof/Machine/Operands.lean ====
section
/-! DEFINITION. The operand forms: how each instruction's rule makes a value, an address or a target from its fields (R52 of
spec/30_encoding.md). -/

namespace Sys2Proof.Machine

/-- `zext_16(nnn)` (R52, R72, R73, R95). -/
def addrOperand (nnn : Addr) : Word := nnn.zeroExtend 16

/-- The operand of the shifts: `V[y]` under Legacy, `V[x]` under Modern (R91, R93; D17). -/
def State.shiftSource (s : State) (x y : Nibble) : Byte :=
  match s.config.compat with
  | .legacy => s.reg y
  | .modern => s.reg x

/-- The register index of `Bnnn`: 0 under Legacy, `nnn[11:8]` under Modern (R52, R78). -/
def State.offsetReg (s : State) (nnn : Addr) : Nibble :=
  match s.config.compat with
  | .legacy => 0
  | .modern => nnn.extractLsb' 8 4

/-- The target of `Bnnn`: `nnn + V[..]`, held in 16 bits, not reduced to 12 (R78; D18). -/
def State.offsetTarget (s : State) (nnn : Addr) : Word :=
  addrOperand nnn + (s.reg (s.offsetReg nnn)).zeroExtend 16

/-- The address of the glyph of a value's low nibble: `FONT_BASE + (v & 0xF) * GLYPH_HEIGHT` (R97). -/
def glyphAddress (v : Byte) : Word :=
  BitVec.ofNat 16 (Config.fontBase + (v &&& 0xF).toNat * Config.glyphHeight)

/-- `trunc_16(ir + V[x])` (R96). -/
def State.indexSum (s : State) (x : Nibble) : Word := s.ir + (s.reg x).zeroExtend 16

/-- The logical key a register's value names; above 0xF there is none (R107). -/
def keyIndex (v : Byte) : Except Fault Nibble :=
  if 0xF < v.toNat then .error (.keyIndexOutOfRange v) else .ok (v.extractLsb' 0 4)

/-- A logical key as a register's value: `zext_8` (R110). -/
def keyValue (k : Nibble) : Byte := k.zeroExtend 8

/-- The three decimal digits of a value: hundreds, tens, units (R98). -/
def bcdDigits (v : Byte) : List Byte :=
  [BitVec.ofNat 8 (v.toNat / 100), BitVec.ofNat 8 (v.toNat / 10 % 10), BitVec.ofNat 8 (v.toNat % 10)]

/-- The start column of a sprite: `V[x] mod W` (R104). -/
def State.spriteColumn (s : State) (x : Nibble) : Nat := (s.reg x).toNat % s.width

/-- The start row of a sprite: `V[y] mod H` (R104). -/
def State.spriteRow (s : State) (y : Nibble) : Nat := (s.reg y).toNat % s.height

/-- The rows of a sprite that fall on the screen: `min(n, H - cy0)` (R104). -/
def State.spriteRows (s : State) (y n : Nibble) : Nat := min n.toNat (s.height - s.spriteRow y)

end Sys2Proof.Machine
end

