-- ==== Sys2Proof/Machine/Alu.lean ====
section
/-! DEFINITION. Register loads and arithmetic: `6xnn`, `7xnn`, the `8xy` family, `Cxnn` (R80 to R94 of spec/42_alu.md). Sums and
differences wrap modulo 256 (R80). -/

namespace Sys2Proof.Machine

/-- `6xnn` (R81). -/
def execLdByte (x : Nibble) (nn : Byte) (s : State) : Host.Outcome State Fault Refusal :=
  (s.setReg x nn).complete

/-- `7xnn` (R82): no flag. -/
def execAddByte (x : Nibble) (nn : Byte) (s : State) : Host.Outcome State Fault Refusal :=
  (s.setReg x (s.reg x + nn)).complete

/-- `8xy0` (R85). -/
def execLdReg (x y : Nibble) (s : State) : Host.Outcome State Fault Refusal :=
  (s.setReg x (s.reg y)).complete

/-- `8xy1` (R86; D16: no flag). -/
def execOrReg (x y : Nibble) (s : State) : Host.Outcome State Fault Refusal :=
  (s.setReg x (s.reg x ||| s.reg y)).complete

/-- `8xy2` (R87; D16: no flag). -/
def execAndReg (x y : Nibble) (s : State) : Host.Outcome State Fault Refusal :=
  (s.setReg x (s.reg x &&& s.reg y)).complete

/-- `8xy3` (R88; D16: no flag). -/
def execXorReg (x y : Nibble) (s : State) : Host.Outcome State Fault Refusal :=
  (s.setReg x (s.reg x ^^^ s.reg y)).complete

/-- `8xy4` (R89). -/
def execAddReg (x y : Nibble) (s : State) : Host.Outcome State Fault Refusal :=
  (s.setResultAndFlag x (s.reg x + s.reg y) (carryFlag (s.reg x) (s.reg y))).complete

/-- `8xy5` (R90). -/
def execSubReg (x y : Nibble) (s : State) : Host.Outcome State Fault Refusal :=
  (s.setResultAndFlag x (s.reg x - s.reg y) (noBorrowFlag (s.reg x) (s.reg y))).complete

/-- `8xy6` (R91). -/
def execShr (x y : Nibble) (s : State) : Host.Outcome State Fault Refusal :=
  (s.setResultAndFlag x (s.shiftSource x y >>> 1) (shiftRightFlag (s.shiftSource x y))).complete

/-- `8xy7` (R92; D13). -/
def execSubnReg (x y : Nibble) (s : State) : Host.Outcome State Fault Refusal :=
  (s.setResultAndFlag x (s.reg y - s.reg x) (noBorrowFlag (s.reg y) (s.reg x))).complete

/-- `8xyE` (R93). -/
def execShl (x y : Nibble) (s : State) : Host.Outcome State Fault Refusal :=
  (s.setResultAndFlag x (s.shiftSource x y <<< 1) (shiftLeftFlag (s.shiftSource x y))).complete

/-- `V[x] <- answer & nn`, for an answer of the host's random byte source (R94). -/
def State.maskedRandom (s : State) (x : Nibble) (nn answer : Byte) : State := s.setReg x (answer &&& nn)

/-- `Cxnn` (R94; D24): the answer is a free value. -/
def execRnd (x : Nibble) (nn : Byte) (s : State) : Host.Outcome State Fault Refusal :=
  (s.countDraw.maskedRandom x nn (Config.randomByte s.draws)).complete

end Sys2Proof.Machine
end

