-- ==== Sys2Proof/Machine/Control.lean ====
section
/-! DEFINITION. Control flow: `00EE`, `1nnn`, `2nnn`, `3xnn`, `4xnn`, `5xy0`, `9xy0`, `Bnnn` (R71 to R79 of
spec/41_control_flow.md). Every meaning runs with `pc` at the post-fetch value (R65). -/

namespace Sys2Proof.Machine

/-- `00EE` (R71; C2, D9). -/
def execRet (s : State) : Host.Outcome State Fault Refusal :=
  if s.sp.val = 0 then s.fail .stackEmpty else s.pop.complete

/-- `1nnn` (R72). -/
def execJp (nnn : Addr) (s : State) : Host.Outcome State Fault Refusal :=
  (s.setPc (addrOperand nnn)).complete

/-- `2nnn` (R73; D10). -/
def execCall (nnn : Addr) (s : State) : Host.Outcome State Fault Refusal :=
  if h : s.sp.val < Config.stackCapacity then ((s.push s.pc h).setPc (addrOperand nnn)).complete
  else s.fail .capacityExceeded

/-- `3xnn` (R74). -/
def execSeByte (x : Nibble) (nn : Byte) (s : State) : Host.Outcome State Fault Refusal :=
  (s.skipIf (s.reg x = nn)).complete

/-- `4xnn` (R75). DEDUCED for `V[x] = nn`, where vector V4-2 gives the skip that R75's pseudocode does not: the rule decides
(entry 19). -/
def execSneByte (x : Nibble) (nn : Byte) (s : State) : Host.Outcome State Fault Refusal :=
  (s.skipIf (s.reg x ≠ nn)).complete

/-- `5xy0` (R76). -/
def execSeReg (x y : Nibble) (s : State) : Host.Outcome State Fault Refusal :=
  (s.skipIf (s.reg x = s.reg y)).complete

/-- `9xy0` (R77). -/
def execSneReg (x y : Nibble) (s : State) : Host.Outcome State Fault Refusal :=
  (s.skipIf (s.reg x ≠ s.reg y)).complete

/-- `Bnnn` (R78; D18). -/
def execJpOffset (nnn : Addr) (s : State) : Host.Outcome State Fault Refusal :=
  (s.setPc (s.offsetTarget nnn)).complete

end Sys2Proof.Machine
end

