-- ==== Sys2Proof/Machine/Display.lean ====
section
/-! DEFINITION. The framebuffer compositor: `00E0` and `Dxyn` (R102 to R106 of spec/44_display.md). -/

namespace Sys2Proof.Machine

/-- A framebuffer being drawn on, and whether a set pixel has been cleared. -/
structure Canvas where
  fb  : Framebuffer
  hit : Bool
deriving DecidableEq, Repr

/-- One set bit of a sprite at one pixel: note a collision, toggle the pixel (R104). -/
def drawPixel (k : Canvas) (cx cy : Nat) : Canvas :=
  { fb := Framebuffer.toggle k.fb cx cy, hit := k.hit || Framebuffer.pixel k.fb cx cy = 1 }

/-- The bits of a sprite row from the left: bit 7 is the leftmost pixel (R104; D21). PRESUMED by the
spec itself (entry 13). -/
def rowBits (b : Byte) : List Bool :=
  [b.getLsbD 7, b.getLsbD 6, b.getLsbD 5, b.getLsbD 4, b.getLsbD 3, b.getLsbD 2, b.getLsbD 1, b.getLsbD 0]

/-- One sprite row from column `cx` on, cut off at the right edge (R104). -/
def drawRow (width cx cy : Nat) : List Bool → Canvas → Canvas
  | [], k => k
  | bit :: bits, k =>
    if width ≤ cx then k
    else drawRow width (cx + 1) cy bits (if bit then drawPixel k cx cy else k)

/-- The rows of a sprite, the first at row `cy` (R104). -/
def drawRows (width cx cy : Nat) : List Byte → Canvas → Canvas
  | [], k => k
  | b :: bytes, k => drawRows width cx (cy + 1) bytes (drawRow width cx cy (rowBits b) k)

/-- `00E0` (R103; C4): every pixel off. -/
def execCls (s : State) : Host.Outcome State Fault Refusal := (s.setFb []).complete

/-- `Dxyn` (R104; D21): the coordinates are read before `VF` is written; the rows clipped at the bottom are not read. -/
def execDrw (x y n : Nibble) (s : State) : Host.Outcome State Fault Refusal :=
  match s.memRead s.ir.toNat (s.spriteRows y n) with
  | .error f  => .fault f
  | .ok bytes =>
    let k := drawRows s.width (s.spriteColumn x) (s.spriteRow y) bytes { fb := s.fb, hit := false }
    ((s.setFb k.fb).setFlag (flagOf k.hit)).complete

end Sys2Proof.Machine
end

