-- ==== Sys2Proof/Machine/Index.lean ====
section
/-! DEFINITION. The index register and memory transfers: `Annn`, `Fx1E`, `Fx29`, `Fx33`, `Fx55`, `Fx65` (R95 to R101 of
spec/43_index_memory.md). Addresses are unbounded: they do not wrap (R101); `ir` is unchanged by the transfers (D20). -/

namespace Sys2Proof.Machine

/-- `Annn` (R95; C1). -/
def execLdI (nnn : Addr) (s : State) : Host.Outcome State Fault Refusal :=
  (s.setIr (addrOperand nnn)).complete

/-- `Fx1E` (R96; C8, D19): the operands are read before `VF` is written. -/
def execAddI (x : Nibble) (s : State) : Host.Outcome State Fault Refusal :=
  ((s.setIr (s.indexSum x)).setFlag
    (indexOverflowFlag s.config.fx1eVfPolicy (s.indexSum x) (s.reg 0xF))).complete

/-- `Fx29` (R97). -/
def execLdFont (x : Nibble) (s : State) : Host.Outcome State Fault Refusal :=
  (s.setIr (glyphAddress (s.reg x))).complete

/-- `Fx33` (R98; D6). -/
def execLdBcd (x : Nibble) (s : State) : Host.Outcome State Fault Refusal :=
  match s.memWrite s.ir.toNat (bcdDigits (s.reg x)) with
  | .error f => .fault f
  | .ok t    => t.complete

/-- `Fx55` (R99; D6). -/
def execStoreRegs (x : Nibble) (s : State) : Host.Outcome State Fault Refusal :=
  match s.memWrite s.ir.toNat (s.regsUpTo x) with
  | .error f => .fault f
  | .ok t    => t.complete

/-- `Fx65` (R100; D6). -/
def execLoadRegs (x : Nibble) (s : State) : Host.Outcome State Fault Refusal :=
  match s.memRead s.ir.toNat (x.toNat + 1) with
  | .error f  => .fault f
  | .ok bytes => (s.setRegs 0 bytes).complete

end Sys2Proof.Machine
end

