-- ==== Sys2Proof/Machine/Keys.lean ====
section
/-! DEFINITION. Keys and timers: `Ex9E`, `ExA1`, `Fx0A`, `Fx07`, `Fx15`, `Fx18` (R107 to R114 of spec/45_timers_keys.md). The
host's answers are free values (R9). -/

namespace Sys2Proof.Machine

/-- `Ex9E` (R107, R108; D22): the fault comes before the query. -/
def execSkp (x : Nibble) (s : State) : Host.Outcome State Fault Refusal :=
  match keyIndex (s.reg x) with
  | .error f => .fault f
  | .ok k    => (s.countDraw.skipIf (Config.keyDown s.draws k)).complete

/-- `ExA1` (R107, R109; D22): up is not down. -/
def execSknp (x : Nibble) (s : State) : Host.Outcome State Fault Refusal :=
  match keyIndex (s.reg x) with
  | .error f => .fault f
  | .ok k    => (s.countDraw.skipIf (!Config.keyDown s.draws k)).complete

/-- What `Fx0A` does with an answer: a key is loaded; with none, `pc` goes back to the instruction (R110). -/
def State.awaitKey (s : State) (x : Nibble) (answer : Option Nibble) : State :=
  match answer with
  | none   => s.setPc (s.pc - 2)
  | some k => s.setReg x (keyValue k)

/-- `Fx0A` (R110; C7, D23). -/
def execLdKey (x : Nibble) (s : State) : Host.Outcome State Fault Refusal :=
  (s.countDraw.awaitKey x (Config.pressedKey s.draws)).complete

/-- `Fx07` (R111). -/
def execLdRegDelay (x : Nibble) (s : State) : Host.Outcome State Fault Refusal :=
  (s.setReg x s.delayTimer).complete

/-- `Fx15` (R112). -/
def execLdDelay (x : Nibble) (s : State) : Host.Outcome State Fault Refusal :=
  (s.setDelay (s.reg x)).complete

/-- `Fx18` (R113). -/
def execLdSound (x : Nibble) (s : State) : Host.Outcome State Fault Refusal :=
  (s.setSound (s.reg x)).complete

end Sys2Proof.Machine
end

