-- ==== Sys2Proof/Machine/Step.lean ====
section
/-! DEFINITION. One `Step` (R62 of spec/40_execution_cycle.md): the fetch of `State.fetch`, then the instruction. `halted` is not
read (R70; C3, D25). -/

namespace Sys2Proof.Machine

/-- One `Step` transaction (R62, R69; entries 4, 7, 8). -/
def step (s : State) : Host.Outcome State Fault Refusal :=
  match s.fetch with
  | .refused r => .refused r
  | .fault f   => .fault f
  | .ended o   => o
  | .run i t   => exec i t

/-- The state with an instruction's word stored where the next Step fetches (entry 10). -/
def State.withFetchWord (s : State) (nbits w : Nat) : State := s.placeWord (tableWord nbits w)

end Sys2Proof.Machine
end

