-- ==== Sys2Proof/Machine/Transactions.lean ====
section
/-! DEFINITION. The host's transactions and reads (R8 of spec/00_scope.md; R127 to R134 of spec/60_exceptions.md; R139 to R147 of
spec/70_reset_and_hazards.md; R47 of spec/20_memory.md). A transaction on a faulted state does not exist (R121). -/

namespace Sys2Proof.Machine

/-- The transactions a host issues to the core (R8). -/
inductive Transaction where
  /-- `Init`, with the new instance's parameters (R6, R139). -/
  | init (cfg : Config)
  | clearState
  | loadProgram (bytes : List Byte)
  /-- `LoadFont(table?)`: no table is the default font (R143). -/
  | loadFont (table : Option (List Byte))
  | step
  | tick
  | setHalted (b : Bool)
deriving DecidableEq, Repr

/-- `Init` creates a new state (R121, R139). The count of draws goes on, so that the new instance's free values are not those of
the old one (entry 3). -/
def State.initAfter (s : State) (cfg : Config) : State := { State.init cfg with draws := s.draws }

/-- `ClearState` (R140; C9, D28): `memory[0x000..0x1FF]` keeps its contents. -/
def State.clearState (s : State) : State :=
  { s with
    pc := BitVec.ofNat 16 Config.programBase, ir := 0, sp := 0, delayTimer := 0, soundTimer := 0, halted := true,
    mem := s.mem.filter (fun c => c.1 < Config.programBase), v := Vector.replicate 16 0, stack := [], fb := [],
    result := .ok }

/-- `LoadProgram(bytes)` (R142; C12, D29). DEDUCED for no bytes and `pc` above 0x1000: the pseudocode decides (entry 14). -/
def State.loadProgram (s : State) (bytes : List Byte) : State :=
  if Config.memSize - Config.programBase < bytes.length ∨ Config.memSize < s.pc.toNat + bytes.length then
    s.setResult (.err .capacityExceeded)
  else (s.storeBytes s.pc.toNat bytes).setResult .ok

/-- The table `LoadFont` copies: the caller's, or the 80 bytes of the parameter `DEFAULT_FONT` (R6, R143). -/
def State.fontTable (s : State) (table : Option (List Byte)) : List Byte :=
  table.getD s.config.defaultFont.toList

/-- `LoadFont(table?)` (R143; C13, D30; entry 16). -/
def State.loadFont (s : State) (table : Option (List Byte)) : Except Refusal State :=
  if Config.programBase - Config.fontBase < (s.fontTable table).length then .error .loadFontTooLarge
  else .ok ((s.storeBytes Config.fontBase (s.fontTable table)).setResult .ok)

/-- A timer after one countdown: saturating at zero (R127). -/
def countdown (t : Byte) : Byte := if 0 < t.toNat then t - 1 else t

/-- `Tick` (R127; D26). -/
def State.tick (s : State) : State :=
  { s with delayTimer := countdown s.delayTimer, soundTimer := countdown s.soundTimer }

/-- `SetHalted(b)` (R133). -/
def State.setHalted (s : State) (b : Bool) : State := { s with halted := b }

/-- `Step` as the state it leaves: a fault sets the fault mark of the state before the Step and nothing else (R62, R67, R120). -/
def State.stepTransaction (s : State) : Except Refusal State :=
  match step s with
  | .next t    => .ok t
  | .fault f   => .ok (s.markFault f)
  | .refused r => .error r

/-- A transaction of the core on any state (R8): the new state, or why there is none. Only `Init` exists on a faulted state (R121). -/
def issue (t : Transaction) (s : State) : Except Refusal State :=
  match t, s.fault with
  | .init cfg, _             => .ok (s.initAfter cfg)
  | _, some _                => .error .faulted
  | .clearState, none        => .ok s.clearState
  | .loadProgram bytes, none => .ok (s.loadProgram bytes)
  | .loadFont table, none    => s.loadFont table
  | .step, none              => s.stepTransaction
  | .tick, none              => .ok s.tick
  | .setHalted b, none       => .ok (s.setHalted b)

/-- The core together with a host that keeps its duty: no `Step` while `halted` (R132; D25; entry 8). -/
def hostIssue (t : Transaction) (s : State) : Except Refusal State :=
  if t = .step ∧ s.halted = true then .error .stepWhileHalted else issue t s

/-- A schedule of the host: its transactions one after another (R44, R138). -/
def runSchedule : List Transaction → State → Except Refusal State
  | [], s => .ok s
  | t :: ts, s =>
    match hostIssue t s with
    | .error r => .error r
    | .ok s'   => runSchedule ts s'

/-- What a `Step` gave back: `Ok`, `Err(kind)` or `Fault(reason)` (R62, R66). -/
inductive Report where
  | result (r : Result)
  | fault (f : Fault)
deriving DecidableEq, Repr

/-- The outcome a state records (R27, R115). -/
def State.report (s : State) : Report :=
  match s.fault with
  | some f => .fault f
  | none   => .result s.result

/-- The code of a result (the table of R115). -/
def Result.code : Result → Nat
  | .ok                        => 0
  | .err .invalidArgument      => 1
  | .err .capacityExceeded     => 2
  | .err .unrecognizedEncoding => 3
  | .err .stackEmpty           => 4

/-- `DumpRange(start, end)`: the bytes it reads, both ends clamped to the memory's size (R47; D36; entry 17). A read: it changes
nothing. -/
def State.dumpRange (s : State) (start stop : Nat) : List Byte :=
  s.bytesFrom (min start Config.memSize) (min stop Config.memSize - min start Config.memSize)

end Sys2Proof.Machine
end

