-- ==== Sys2Proof/Safety.lean ====
section
/-! DEFINITION. The terms claims use: the invariant of a good state, the footprint of an instruction, the end of a run. -/

namespace Sys2Proof.Machine

/-- The invariant: memory, stack and framebuffer are in their canonical form (so no byte is held outside 0x000..0xFFF, R33; no
pixel outside W x H, R24; no return address above 0x1000, R71), and `pc` is at most 0x10FE (R20). -/
abbrev State.Inv (s : State) : Prop :=
  Memory.wf s.mem = true ∧ Stack.wf s.stack = true ∧ Framebuffer.wf s.config.fbMode s.fb = true ∧ s.pc.toNat ≤ 0x10FE

/-- What a transition may write; whatever is not named here stays. -/
structure Footprint where
  regs  : List Nibble := []
  /-- The first address stored to and the number of bytes stored. -/
  bytes : Nat × Nat := (0, 0)
  pc    : Bool := false
  ir    : Bool := false
  stack : Bool := false
  fb    : Bool := false
  delay : Bool := false
  sound : Bool := false
  draw  : Bool := false
deriving DecidableEq, Repr

/-- From `s` to `t` nothing has changed but what the footprint names, and `result`. The parameters, `halted` and the fault mark
never change (R26, R27, R28). -/
structure State.ChangesOnly (s t : State) (f : Footprint) : Prop where
  regs   : ∀ r, r ∉ f.regs → t.reg r = s.reg r
  bytes  : ∀ a, ¬(f.bytes.1 ≤ a ∧ a < f.bytes.1 + f.bytes.2) → t.byteAt a = s.byteAt a
  pc     : f.pc = false → t.pc = s.pc
  ir     : f.ir = false → t.ir = s.ir
  sp     : f.stack = false → t.sp = s.sp
  stack  : f.stack = false → ∀ i, t.stackAt i = s.stackAt i
  fb     : f.fb = false → ∀ cx cy, t.pixel cx cy = s.pixel cx cy
  delay  : f.delay = false → t.delayTimer = s.delayTimer
  sound  : f.sound = false → t.soundTimer = s.soundTimer
  draws  : t.draws = s.draws + (if f.draw then 1 else 0)
  halted : t.halted = s.halted
  fault  : t.fault = s.fault
  config : t.config = s.config

/-- The next Step fetches this word: no fault mark, `pc` in the fetch's range, the bytes big-endian (R38, R62, R63, R70). -/
abbrev State.Fetches (s : State) (w : Word) : Prop :=
  s.fault = none ∧ s.pc.toNat ≤ 0xFFE ∧ bigEndian (s.byteAt s.pc.toNat) (s.byteAt (s.pc.toNat + 1)) = w

/-- The state a Step that returns `Err(kind)` leaves: the fetch advance and nothing else (R116). -/
def State.afterErr (s : State) (kind : ErrKind) : State := { s with pc := s.pc + 2, result := .err kind }

/-- `Dxyn` has a set sprite bit for the pixel of column `cx` and row `cy`: the pixel lies on the screen and in the sprite's
rectangle, and the bit of its row's byte is 1, bit 7 leftmost (R104). -/
def State.spriteBit (s : State) (x y n : Nibble) (cx cy : Nat) : Bool :=
  let cx0 := (s.reg x).toNat % s.width
  let cy0 := (s.reg y).toNat % s.height
  cx0 ≤ cx && cx < cx0 + 8 && cx < s.width && cy0 ≤ cy && cy < cy0 + n.toNat && cy < s.height
    && (s.byteAt (s.ir.toNat + (cy - cy0))).getLsbD (7 - (cx - cx0))

/-- The two states differ at most in stack entries at index `sp` or above (R22, R30). -/
def State.SameButStale (s t : State) : Prop :=
  t = { s with stack := t.stack } ∧ ∀ i, i < s.sp.val → t.stackAt i = s.stackAt i

/-- Two outcomes of a Step with the same fault or refusal, or next states that the relation holds of. -/
def SameOutcome (rel : State → State → Prop) : (o p : Host.Outcome State Fault Refusal) → Prop
  | .next s, .next t       => rel s t
  | .fault f, .fault g     => f = g
  | .refused q, .refused r => q = r
  | _, _                   => False

/-- The run of a loaded program has ended: no fault, and `pc` addresses a jump to itself (R153; D35). -/
def State.ended (s : State) : Bool :=
  s.fault = none && s.pc.toNat ≤ 0xFFE && s.wordAt s.pc.toNat = formatNNN 0x1 (s.pc.extractLsb' 0 12)

end Sys2Proof.Machine
end

