-- ==== Sys2Proof/Certificates/Slice0/Obligations.lean ====
section
/-! DEFINITION. The statements for the provers. `exec` runs with `pc` at the post-fetch value (R65); where a statement names
`result`, `draws` or `config`, it names a field of the model's own (entries 1, 2 and 3). -/

open Sys2Proof Sys2Proof.Machine

/-! ## Encoding (spec/30_encoding.md) -/

/-- R50 to R59: no bit of an encoding is dropped, for every instruction and every operand; and so from bytes. -/
def Obligations.DecodeOfEncode : Prop :=
  ∀ (i : Instr) (rest : List Byte),
    i.wellFormed = true ∧ decodeWord (encode i) = .ok i ∧ decode (encodeBytes i ++ rest) = .ok (i, rest)

/-- R52, R59: a word has no bits the decoder ignores, since encoding what it decodes to gives the word back. -/
def Obligations.EncodeOfDecode : Prop :=
  ∀ (w : Word) (i : Instr), decodeWord w = .ok i → encode i = w

/-- R60: every word is exactly one row of the opcode table, or it is unrecognized; the unrecognized set; the Step on such a word. -/
def Obligations.EveryWordOneRowOrUnrecognized : Prop :=
  ∀ w : Word,
    ((∃ i, decodeWord w = .ok i ∧ i.row ∈ opcodeRows ∧ w &&& i.row.mask = i.row.value ∧
        ∀ r ∈ opcodeRows, w &&& r.mask = r.value → r = i.row) ∨
     (decodeWord w = .error (.unrecognizedEncoding w) ∧ ∀ r ∈ opcodeRows, w &&& r.mask ≠ r.value)) ∧
    ((∃ e, decodeWord w = .error e) ↔
      ((opField w = 0x0 ∧ w ≠ 0x00E0 ∧ w ≠ 0x00EE) ∨
       ((opField w = 0x5 ∨ opField w = 0x9) ∧ nField w ≠ 0) ∨
       (opField w = 0x8 ∧ nField w ∈ [0x8#4, 0x9#4, 0xA#4, 0xB#4, 0xC#4, 0xD#4, 0xF#4]) ∨
       (opField w = 0xE ∧ nnField w ∉ [0x9E#8, 0xA1#8]) ∨
       (opField w = 0xF ∧
        nnField w ∉ [0x07#8, 0x0A#8, 0x15#8, 0x18#8, 0x1E#8, 0x29#8, 0x33#8, 0x55#8, 0x65#8]))) ∧
    (∀ s : State, s.Fetches w → (∃ e, decodeWord w = .error e) →
      step s = .next (s.afterErr .unrecognizedEncoding))

/-- R71 to R113: words of the spec's examples, one of each family, decode to their instructions. -/
def Obligations.SpecWordsDecode : Prop :=
  decodeWord 0x00E0 = .ok .cls ∧ decodeWord 0x00EE = .ok .ret ∧ decodeWord 0x1234 = .ok (.jp 0x234) ∧
  decodeWord 0x2050 = .ok (.call 0x050) ∧ decodeWord 0x3A2F = .ok (.seByte 0xA 0x2F) ∧
  decodeWord 0x5120 = .ok (.seReg 0x1 0x2) ∧ decodeWord 0x8014 = .ok (.addReg 0x0 0x1) ∧
  decodeWord 0x9120 = .ok (.sneReg 0x1 0x2) ∧ decodeWord 0xA300 = .ok (.ldI 0x300) ∧
  decodeWord 0xB2F0 = .ok (.jpOffset 0x2F0) ∧ decodeWord 0xC30F = .ok (.rnd 0x3 0x0F) ∧
  decodeWord 0xD015 = .ok (.drw 0x0 0x1 0x5) ∧ decodeWord 0xE59E = .ok (.skp 0x5) ∧
  decodeWord 0xFA33 = .ok (.ldBcd 0xA)

/-! ## The execution cycle (spec/40_execution_cycle.md) -/

/-- R62, R65: where the bytes at `pc` decode to an instruction, a Step is that instruction on the state with `pc` advanced by 2. -/
def Obligations.StepRunsTheDecodedInstruction : Prop :=
  ∀ (s : State) (w : Word) (i : Instr),
    s.Fetches w → decodeWord w = .ok i → step s = exec i { s with pc := s.pc + 2 }

/-- R63: a fetch above 0xFFE faults before anything is read, and the state keeps everything but the fault mark; otherwise the
word fetched is the two bytes at `pc`, the one at the lower address high, and the Step goes by that word. -/
def Obligations.FetchRange : Prop :=
  ∀ s : State, s.fault = none →
    (0xFFE < s.pc.toNat →
      step s = .fault (.fetchOutOfRange s.pc) ∧
      issue .step s = .ok { s with fault := some (.fetchOutOfRange s.pc) }) ∧
    (s.pc.toNat ≤ 0xFFE → ∃ w : Word,
      w.toNat = (s.byteAt s.pc.toNat).toNat * 256 + (s.byteAt (s.pc.toNat + 1)).toNat ∧
      step s = match decodeWord w with
        | .ok i    => exec i { s with pc := s.pc + 2 }
        | .error _ => .next (s.afterErr .unrecognizedEncoding))

/-- R20: the ways a Step changes `pc`, and no other way. -/
def Obligations.PcChangesOnlyInTheNamedWays : Prop :=
  ∀ s t : State, step s = .next t →
    t.pc = s.pc + 2 ∨
    ∃ i, decodeWord (s.wordAt s.pc.toNat) = .ok i ∧
      ((t.pc = s.pc + 4 ∧
        ((∃ x nn, i = .seByte x nn ∨ i = .sneByte x nn) ∨ (∃ x y, i = .seReg x y ∨ i = .sneReg x y) ∨
         (∃ x, i = .skp x ∨ i = .sknp x))) ∨
       (∃ nnn, (i = .jp nnn ∨ i = .call nnn) ∧ t.pc.toNat = nnn.toNat) ∨
       (∃ nnn r, i = .jpOffset nnn ∧ t.pc.toNat = nnn.toNat + (s.reg r).toNat) ∨
       (i = .ret ∧ t.pc = s.stackAt (s.sp.val - 1)) ∨
       (∃ x, i = .ldKey x ∧ t.pc = s.pc))

/-! ## Errors and faults (spec/60_exceptions.md) -/

/-- R116: a Step that returns an `Err` keeps the fetch advance and changes nothing else; and which of the three it is (R117). -/
def Obligations.ErrStepKeepsAllButPc : Prop :=
  ∀ (s t : State) (k : ErrKind), step s = .next t → t.result = .err k →
    t = s.afterErr k ∧
    ((k = .unrecognizedEncoding ∧ ∃ e, decodeWord (s.wordAt s.pc.toNat) = .error e) ∨
     (k = .capacityExceeded ∧ s.sp.val = 1000 ∧ ∃ nnn, decodeWord (s.wordAt s.pc.toNat) = .ok (.call nnn)) ∨
     (k = .stackEmpty ∧ s.sp.val = 0 ∧ decodeWord (s.wordAt s.pc.toNat) = .ok .ret))

/-- R120: every fault of a Step is one of the table's, raised where the table says, with the value it records; the Step writes
the fault mark and nothing else. -/
def Obligations.FaultStepWritesOnlyTheMark : Prop :=
  ∀ (s : State) (f : Fault), step s = .fault f →
    issue .step s = .ok { s with fault := some f } ∧
    ((f = .fetchOutOfRange s.pc ∧ 0xFFE < s.pc.toNat) ∨
     ∃ i, decodeWord (s.wordAt s.pc.toNat) = .ok i ∧
       ((f = .memoryOutOfRange (max s.ir.toNat 0x1000) .read ∧
          ((∃ x y n, i = .drw x y n ∧ ∃ r, r < n.toNat ∧ (s.reg y).toNat % s.height + r < s.height ∧
              0xFFF < s.ir.toNat + r) ∨
           ∃ x, i = .loadRegs x ∧ 0xFFF < s.ir.toNat + x.toNat)) ∨
        (f = .memoryOutOfRange (max s.ir.toNat 0x1000) .write ∧
          ((∃ x, i = .ldBcd x ∧ 0xFFF < s.ir.toNat + 2) ∨ ∃ x, i = .storeRegs x ∧ 0xFFF < s.ir.toNat + x.toNat)) ∨
        (∃ x, (i = .skp x ∨ i = .sknp x) ∧ f = .keyIndexOutOfRange (s.reg x) ∧ 0xF < (s.reg x).toNat)))

/-- R121: a faulted state has no transaction but `Init`, which makes a new state with no fault; and no Step. -/
def Obligations.FaultedStateIsStuck : Prop :=
  ∀ (s : State) (f : Fault), s.fault = some f →
    step s = .refused .faulted ∧
    (∀ t : Transaction, (∀ cfg, t ≠ .init cfg) → issue t s = .error .faulted) ∧
    (∀ cfg, ∃ t, issue (.init cfg) s = .ok t ∧ t.fault = none)

/-- R26, R70: a Step neither reads nor writes `halted`. -/
def Obligations.StepIgnoresHalted : Prop :=
  ∀ (s : State) (b : Bool),
    SameOutcome (fun t u => t.halted = s.halted ∧ u = { t with halted := b }) (step s) (step { s with halted := b })

/-- R132: with the host's duty kept, a Step is taken only from a state with `halted = false`. -/
def Obligations.HostStepsOnlyWhenNotHalted : Prop :=
  ∀ s : State,
    (s.halted = true → hostIssue .step s = .error .stepWhileHalted) ∧
    (s.halted = false → hostIssue .step s = issue .step s)

/-! ## Control flow (spec/41_control_flow.md) -/

/-- R71: `00EE` pops the return address into `pc`; on an empty stack it returns an error and pops nothing. -/
def Obligations.ReturnPops : Prop :=
  decodeWord 0x00EE = .ok .ret ∧
  ∀ s : State,
    (s.sp.val = 0 → exec .ret s = .next { s with result := .err .stackEmpty }) ∧
    (0 < s.sp.val → ∃ t, exec .ret s = .next t ∧ t.result = .ok ∧
      t.sp.val = s.sp.val - 1 ∧ t.pc = s.stackAt (s.sp.val - 1) ∧ (∀ i, t.stackAt i = s.stackAt i) ∧
      s.ChangesOnly t { pc := true, stack := true })

/-- R72: `1nnn` sets `pc` to the 12-bit target. -/
def Obligations.JumpSetsPc : Prop :=
  ∀ (s : State) (nnn : Addr),
    decodeWord (0x1#4 ++ nnn) = .ok (.jp nnn) ∧
    ∃ t, exec (.jp nnn) s = .next t ∧ t.result = .ok ∧ t.pc.toNat = nnn.toNat ∧ s.ChangesOnly t { pc := true }

/-- R73: `2nnn` pushes the post-fetch `pc` and jumps; on a full stack it returns an error and pushes nothing. -/
def Obligations.CallPushes : Prop :=
  ∀ (s : State) (nnn : Addr),
    decodeWord (0x2#4 ++ nnn) = .ok (.call nnn) ∧
    (s.sp.val = 1000 → exec (.call nnn) s = .next { s with result := .err .capacityExceeded }) ∧
    (s.sp.val < 1000 → ∃ t, exec (.call nnn) s = .next t ∧ t.result = .ok ∧
      t.sp.val = s.sp.val + 1 ∧ t.pc.toNat = nnn.toNat ∧
      (∀ i, t.stackAt i = if i = s.sp.val then s.pc else s.stackAt i) ∧
      s.ChangesOnly t { pc := true, stack := true })

/-- R71, R73 (the scenario W7): a return right after a call, wherever it stands, brings back the post-fetch `pc` and the depth. -/
def Obligations.ReturnUndoesCall : Prop :=
  ∀ (s : State) (nnn : Addr) (a : Word), s.sp.val < 1000 →
    ∃ t u, exec (.call nnn) s = .next t ∧ exec .ret { t with pc := a } = .next u ∧ u.result = .ok ∧
      u.pc = s.pc ∧ u.sp = s.sp ∧ ∀ i, i < s.sp.val → u.stackAt i = s.stackAt i

/-- R74, R75: `3xnn` skips iff the register equals the immediate, `4xnn` iff it differs, as the rules read (vector V4-2 differs from R75: entry 19). -/
def Obligations.SkipsOnImmediate : Prop :=
  ∀ (s : State) (x : Nibble) (nn : Byte),
    decodeWord (0x3#4 ++ x ++ nn) = .ok (.seByte x nn) ∧ decodeWord (0x4#4 ++ x ++ nn) = .ok (.sneByte x nn) ∧
    (∃ t, exec (.seByte x nn) s = .next t ∧ t.result = .ok ∧
      t.pc = (if s.reg x = nn then s.pc + 2 else s.pc) ∧ s.ChangesOnly t { pc := true }) ∧
    (∃ t, exec (.sneByte x nn) s = .next t ∧ t.result = .ok ∧
      t.pc = (if s.reg x = nn then s.pc else s.pc + 2) ∧ s.ChangesOnly t { pc := true })

/-- R76, R77: `5xy0` skips iff the registers are equal, `9xy0` iff they differ; with `n` not 0 the Step returns an error and
does not skip (R76), and only the fetch advance stays: the spec's own choice (R60, R116; D8, D11). -/
def Obligations.SkipsOnRegisters : Prop :=
  ∀ (s : State) (x y : Nibble),
    decodeWord (0x5#4 ++ x ++ y ++ 0x0#4) = .ok (.seReg x y) ∧
    decodeWord (0x9#4 ++ x ++ y ++ 0x0#4) = .ok (.sneReg x y) ∧
    (∃ t, exec (.seReg x y) s = .next t ∧ t.result = .ok ∧
      t.pc = (if s.reg x = s.reg y then s.pc + 2 else s.pc) ∧ s.ChangesOnly t { pc := true }) ∧
    (∃ t, exec (.sneReg x y) s = .next t ∧ t.result = .ok ∧
      t.pc = (if s.reg x = s.reg y then s.pc else s.pc + 2) ∧ s.ChangesOnly t { pc := true }) ∧
    (∀ n : Nibble, n ≠ 0 → s.Fetches (0x5#4 ++ x ++ y ++ n) ∨ s.Fetches (0x9#4 ++ x ++ y ++ n) →
      step s = .next (s.afterErr .unrecognizedEncoding))

/-- R78: `Bnnn` adds `V0` under Legacy and `V[nnn[11:8]]` under Modern to the whole `nnn`, and does not mask the sum. -/
def Obligations.JumpWithOffset : Prop :=
  ∀ (s : State) (nnn : Addr),
    decodeWord (0xB#4 ++ nnn) = .ok (.jpOffset nnn) ∧
    ∃ t, exec (.jpOffset nnn) s = .next t ∧ t.result = .ok ∧
      (s.config.compat = .legacy → t.pc.toNat = nnn.toNat + (s.reg 0).toNat) ∧
      (s.config.compat = .modern → t.pc.toNat = nnn.toNat + (s.reg (BitVec.ofNat 4 (nnn.toNat / 256))).toNat) ∧
      t.pc.toNat ≤ 0x10FE ∧ s.ChangesOnly t { pc := true }

/-! ## Register loads and arithmetic (spec/42_alu.md) -/

/-- R81, R82, R85: `6xnn` loads the immediate; `7xnn` adds it modulo 256 and sets no flag; `8xy0` copies a register. -/
def Obligations.LoadsAndImmediateAdd : Prop :=
  (∀ (s : State) (x : Nibble) (nn : Byte),
    decodeWord (0x6#4 ++ x ++ nn) = .ok (.ldByte x nn) ∧ decodeWord (0x7#4 ++ x ++ nn) = .ok (.addByte x nn) ∧
    (∃ t, exec (.ldByte x nn) s = .next t ∧ t.result = .ok ∧ t.reg x = nn ∧ s.ChangesOnly t { regs := [x] }) ∧
    (∃ t, exec (.addByte x nn) s = .next t ∧ t.result = .ok ∧
      (t.reg x).toNat = ((s.reg x).toNat + nn.toNat) % 256 ∧ s.ChangesOnly t { regs := [x] })) ∧
  (∀ (s : State) (x y : Nibble),
    decodeWord (0x8#4 ++ x ++ y ++ 0x0#4) = .ok (.ldReg x y) ∧
    ∃ t, exec (.ldReg x y) s = .next t ∧ t.result = .ok ∧ t.reg x = s.reg y ∧ s.ChangesOnly t { regs := [x] })

/-- R86 to R88: OR, AND, XOR into `Vx`, bit by bit; `VF` is not written unless it is `Vx` (D16). The sub-operation values 1, 2 and
3 are the spec's own (R83: "taken from the listing order and the usual CHIP-8 map"). -/
def Obligations.LogicOperations : Prop :=
  ∀ (s : State) (x y : Nibble),
    decodeWord (0x8#4 ++ x ++ y ++ 0x1#4) = .ok (.orReg x y) ∧
    decodeWord (0x8#4 ++ x ++ y ++ 0x2#4) = .ok (.andReg x y) ∧
    decodeWord (0x8#4 ++ x ++ y ++ 0x3#4) = .ok (.xorReg x y) ∧
    (∃ t, exec (.orReg x y) s = .next t ∧ t.result = .ok ∧
      (∀ i, (t.reg x).getLsbD i = ((s.reg x).getLsbD i || (s.reg y).getLsbD i)) ∧ s.ChangesOnly t { regs := [x] }) ∧
    (∃ t, exec (.andReg x y) s = .next t ∧ t.result = .ok ∧
      (∀ i, (t.reg x).getLsbD i = ((s.reg x).getLsbD i && (s.reg y).getLsbD i)) ∧ s.ChangesOnly t { regs := [x] }) ∧
    (∃ t, exec (.xorReg x y) s = .next t ∧ t.result = .ok ∧
      (∀ i, (t.reg x).getLsbD i = ((s.reg x).getLsbD i ^^ (s.reg y).getLsbD i)) ∧ s.ChangesOnly t { regs := [x] })

/-- R89: the sum modulo 256, and then the carry into `VF`. For `x` = F the flag remains: the order is the spec's own choice (R84,
D14). -/
def Obligations.AddWithCarry : Prop :=
  ∀ (s : State) (x y : Nibble),
    decodeWord (0x8#4 ++ x ++ y ++ 0x4#4) = .ok (.addReg x y) ∧
    ∃ t, exec (.addReg x y) s = .next t ∧ t.result = .ok ∧
      (x ≠ 0xF → (t.reg x).toNat = ((s.reg x).toNat + (s.reg y).toNat) % 256) ∧
      t.reg 0xF = (if 255 < (s.reg x).toNat + (s.reg y).toNat then 1 else 0) ∧
      s.ChangesOnly t { regs := [x, 0xF] }

/-- R90: the difference modulo 256, and then 1 into `VF` iff there is no borrow. The boundary `>=` and the order for `x` = F are the
spec's own choices (D15, D14). -/
def Obligations.SubtractWithNoBorrow : Prop :=
  ∀ (s : State) (x y : Nibble),
    decodeWord (0x8#4 ++ x ++ y ++ 0x5#4) = .ok (.subReg x y) ∧
    ∃ t, exec (.subReg x y) s = .next t ∧ t.result = .ok ∧
      (x ≠ 0xF → ((t.reg x).toNat : Int) = ((s.reg x).toNat - (s.reg y).toNat : Int) % 256) ∧
      t.reg 0xF = (if (s.reg y).toNat ≤ (s.reg x).toNat then 1 else 0) ∧
      s.ChangesOnly t { regs := [x, 0xF] }

/-- R92: the difference `Vy - Vx` modulo 256 into `Vx`, and then 1 into `VF` iff there is no borrow. The whole instruction is the
spec's own (R92: "The spec includes `8xy7` as the standard CHIP-8 reverse subtraction"; D13). -/
def Obligations.ReverseSubtract : Prop :=
  ∀ (s : State) (x y : Nibble),
    decodeWord (0x8#4 ++ x ++ y ++ 0x7#4) = .ok (.subnReg x y) ∧
    ∃ t, exec (.subnReg x y) s = .next t ∧ t.result = .ok ∧
      (x ≠ 0xF → ((t.reg x).toNat : Int) = ((s.reg y).toNat - (s.reg x).toNat : Int) % 256) ∧
      t.reg 0xF = (if (s.reg x).toNat ≤ (s.reg y).toNat then 1 else 0) ∧
      s.ChangesOnly t { regs := [x, 0xF] }

/-- R91, R93: shift `Vy` under Legacy or `Vx` under Modern by one; the bit shifted out into `VF`. The sub-operation value 6 and the
order for `x` = F are the spec's own (R83, R84; D12, D14). -/
def Obligations.ShiftsByOne : Prop :=
  ∀ (s : State) (x y : Nibble) (src : Byte),
    src = (if s.config.compat = .legacy then s.reg y else s.reg x) →
    decodeWord (0x8#4 ++ x ++ y ++ 0x6#4) = .ok (.shr x y) ∧
    decodeWord (0x8#4 ++ x ++ y ++ 0xE#4) = .ok (.shl x y) ∧
    (∃ t, exec (.shr x y) s = .next t ∧ t.result = .ok ∧
      (x ≠ 0xF → (t.reg x).toNat = src.toNat / 2) ∧ (t.reg 0xF).toNat = src.toNat % 2 ∧
      s.ChangesOnly t { regs := [x, 0xF] }) ∧
    (∃ t, exec (.shl x y) s = .next t ∧ t.result = .ok ∧
      (x ≠ 0xF → (t.reg x).toNat = src.toNat * 2 % 256) ∧ (t.reg 0xF).toNat = src.toNat / 128 ∧
      s.ChangesOnly t { regs := [x, 0xF] })

/-- R94: the host's answer under the mask; one draw (R9). The answer is a free value (entry 3). -/
def Obligations.RandomUnderMask : Prop :=
  ∀ (s : State) (x : Nibble) (nn : Byte),
    decodeWord (0xC#4 ++ x ++ nn) = .ok (.rnd x nn) ∧
    ∃ t, exec (.rnd x nn) s = .next t ∧ t.result = .ok ∧
      (∀ i, (t.reg x).getLsbD i = ((Config.randomByte s.draws).getLsbD i && nn.getLsbD i)) ∧
      s.ChangesOnly t { regs := [x], draw := true }

/-! ## Index register and memory transfers (spec/43_index_memory.md) -/

/-- R95, R97: `Annn` loads `ir`; `Fx29` points it at the glyph of the low nibble. -/
def Obligations.IndexLoads : Prop :=
  (∀ (s : State) (nnn : Addr),
    decodeWord (0xA#4 ++ nnn) = .ok (.ldI nnn) ∧
    ∃ t, exec (.ldI nnn) s = .next t ∧ t.result = .ok ∧ t.ir.toNat = nnn.toNat ∧ s.ChangesOnly t { ir := true }) ∧
  (∀ (s : State) (x : Nibble),
    decodeWord (0xF#4 ++ x ++ 0x29#8) = .ok (.ldFont x) ∧
    ∃ t, exec (.ldFont x) s = .next t ∧ t.result = .ok ∧
      t.ir.toNat = 0x50 + (s.reg x).toNat % 16 * 5 ∧ s.ChangesOnly t { ir := true })

/-- R96: the sum modulo 65536; `VF` is 1 above 0xFFF, else 0 or unchanged as `FX1E_VF_POLICY` says. -/
def Obligations.IndexAdd : Prop :=
  ∀ (s : State) (x : Nibble),
    decodeWord (0xF#4 ++ x ++ 0x1E#8) = .ok (.addI x) ∧
    ∃ t, exec (.addI x) s = .next t ∧ t.result = .ok ∧
      t.ir.toNat = (s.ir.toNat + (s.reg x).toNat) % 65536 ∧
      t.reg 0xF = (if 0xFFF < t.ir.toNat then 1
        else if s.config.fx1eVfPolicy = .clearOnNoOverflow then 0 else s.reg 0xF) ∧
      s.ChangesOnly t { regs := [0xF], ir := true }

/-- R98: the three decimal digits at `ir`, `ir+1`, `ir+2`, or the fault with nothing written when `ir + 2 > 0xFFF`. -/
def Obligations.StoreDecimalDigits : Prop :=
  ∀ (s : State) (x : Nibble),
    decodeWord (0xF#4 ++ x ++ 0x33#8) = .ok (.ldBcd x) ∧
    (s.ir.toNat + 2 ≤ 0xFFF → ∃ t, exec (.ldBcd x) s = .next t ∧ t.result = .ok ∧
      (t.byteAt s.ir.toNat).toNat = (s.reg x).toNat / 100 ∧
      (t.byteAt (s.ir.toNat + 1)).toNat = (s.reg x).toNat / 10 % 10 ∧
      (t.byteAt (s.ir.toNat + 2)).toNat = (s.reg x).toNat % 10 ∧
      s.ChangesOnly t { bytes := (s.ir.toNat, 3) }) ∧
    (0xFFF < s.ir.toNat + 2 →
      exec (.ldBcd x) s = .fault (.memoryOutOfRange (max s.ir.toNat 0x1000) .write))

/-- R99: `V0..Vx` at `ir` and up, or the fault with nothing written when `ir + x > 0xFFF`; `ir` stays. -/
def Obligations.StoreRegisters : Prop :=
  ∀ (s : State) (x : Nibble),
    decodeWord (0xF#4 ++ x ++ 0x55#8) = .ok (.storeRegs x) ∧
    (s.ir.toNat + x.toNat ≤ 0xFFF → ∃ t, exec (.storeRegs x) s = .next t ∧ t.result = .ok ∧
      (∀ i : Nibble, i.toNat ≤ x.toNat → t.byteAt (s.ir.toNat + i.toNat) = s.reg i) ∧
      s.ChangesOnly t { bytes := (s.ir.toNat, x.toNat + 1) }) ∧
    (0xFFF < s.ir.toNat + x.toNat →
      exec (.storeRegs x) s = .fault (.memoryOutOfRange (max s.ir.toNat 0x1000) .write))

/-- R100: `V0..Vx` from `ir` and up, the registers above `Vx` unchanged, or the fault with nothing written when
`ir + x > 0xFFF`; `ir` stays. -/
def Obligations.LoadRegisters : Prop :=
  ∀ (s : State) (x : Nibble),
    decodeWord (0xF#4 ++ x ++ 0x65#8) = .ok (.loadRegs x) ∧
    (s.ir.toNat + x.toNat ≤ 0xFFF → ∃ t, exec (.loadRegs x) s = .next t ∧ t.result = .ok ∧
      (∀ i : Nibble, t.reg i = if i.toNat ≤ x.toNat then s.byteAt (s.ir.toNat + i.toNat) else s.reg i) ∧
      s.ChangesOnly t { regs := (List.range (x.toNat + 1)).map (BitVec.ofNat 4) }) ∧
    (0xFFF < s.ir.toNat + x.toNat →
      exec (.loadRegs x) s = .fault (.memoryOutOfRange (max s.ir.toNat 0x1000) .read))

/-- R46, R38: registers stored over the next instruction are what the next Step fetches, `V0` the high byte, with nothing between. -/
def Obligations.StoreIsSeenByNextFetch : Prop :=
  ∀ (s : State) (x : Nibble) (i : Instr),
    s.fault = none → s.ir = s.pc → 1 ≤ x.toNat → s.ir.toNat + x.toNat ≤ 0xFFF →
    decodeWord (bigEndian (s.reg 0) (s.reg 1)) = .ok i →
    ∃ t, exec (.storeRegs x) s = .next t ∧ step t = exec i { t with pc := t.pc + 2 }

/-! ## Framebuffer (spec/44_display.md) -/

/-- R103: every pixel off, nothing else changed. -/
def Obligations.ClearScreen : Prop :=
  decodeWord 0x00E0 = .ok .cls ∧
  ∀ s : State, ∃ t, exec .cls s = .next t ∧ t.result = .ok ∧ (∀ cx cy, t.pixel cx cy = 0) ∧
    s.ChangesOnly t { fb := true }

/-- R104: every pixel of the screen is toggled iff the sprite has a set bit there; `VF` is 1 iff a pixel that was on is turned
off, else 0; a sprite row on the screen and above 0xFFF is the fault, with nothing written. -/
def Obligations.DrawXorsTheSprite : Prop :=
  ∀ (s : State) (x y n : Nibble) (rows : Nat),
    rows = min n.toNat (s.height - (s.reg y).toNat % s.height) →
    decodeWord (0xD#4 ++ x ++ y ++ n) = .ok (.drw x y n) ∧
    (s.ir.toNat + rows ≤ 0x1000 ∨ rows = 0 → ∃ t, exec (.drw x y n) s = .next t ∧ t.result = .ok ∧
      (∀ cx cy, cx < s.width → cy < s.height →
        t.pixel cx cy = if s.spriteBit x y n cx cy then 1 - s.pixel cx cy else s.pixel cx cy) ∧
      ((∃ cx cy, cx < s.width ∧ cy < s.height ∧ s.spriteBit x y n cx cy = true ∧ s.pixel cx cy = 1) →
        t.reg 0xF = 1) ∧
      ((∀ cx cy, cx < s.width → cy < s.height → s.spriteBit x y n cx cy = true → s.pixel cx cy = 0) →
        t.reg 0xF = 0) ∧
      s.ChangesOnly t { regs := [0xF], fb := true }) ∧
    (0 < rows → 0x1000 < s.ir.toNat + rows →
      exec (.drw x y n) s = .fault (.memoryOutOfRange (max s.ir.toNat 0x1000) .read))

/-- R105: the XOR law of two equal draws in a row, with `x` and `y` not F. -/
def Obligations.DoubleDrawRestores : Prop :=
  ∀ (s t : State) (x y n : Nibble), x ≠ 0xF → y ≠ 0xF → exec (.drw x y n) s = .next t →
    ∃ u, exec (.drw x y n) t = .next u ∧
      (∀ cx cy, cx < s.width → cy < s.height →
        u.pixel cx cy = s.pixel cx cy ∧
        (t.pixel cx cy = s.pixel cx cy ↔ s.spriteBit x y n cx cy = false)) ∧
      (u.reg 0xF = 1 ↔ ∃ cx cy, cx < s.width ∧ cy < s.height ∧ s.pixel cx cy = 0 ∧ t.pixel cx cy = 1)

/-! ## Keys and timers (spec/45_timers_keys.md) -/

/-- R107, R108, R109: with `V[x]` at most 0xF, one answer for that key decides the skip; above 0xF, the fault. The answer is a free
value (entry 3). -/
def Obligations.KeySkips : Prop :=
  ∀ (s : State) (x : Nibble),
    decodeWord (0xE#4 ++ x ++ 0x9E#8) = .ok (.skp x) ∧ decodeWord (0xE#4 ++ x ++ 0xA1#8) = .ok (.sknp x) ∧
    ((s.reg x).toNat ≤ 0xF →
      (∃ t, exec (.skp x) s = .next t ∧ t.result = .ok ∧
        t.pc = (if Config.keyDown s.draws (BitVec.ofNat 4 (s.reg x).toNat) = true then s.pc + 2 else s.pc) ∧
        s.ChangesOnly t { pc := true, draw := true }) ∧
      (∃ t, exec (.sknp x) s = .next t ∧ t.result = .ok ∧
        t.pc = (if Config.keyDown s.draws (BitVec.ofNat 4 (s.reg x).toNat) = true then s.pc else s.pc + 2) ∧
        s.ChangesOnly t { pc := true, draw := true })) ∧
    (0xF < (s.reg x).toNat →
      exec (.skp x) s = .fault (.keyIndexOutOfRange (s.reg x)) ∧
      exec (.sknp x) s = .fault (.keyIndexOutOfRange (s.reg x)))

/-- R110: whatever the host answers, `Fx0A` completes with one draw: with a key, the key is loaded; with none, `pc` is back at the
instruction and a Step leaves all but `result` and `draws` as they were. The answer is a free value (entry 3). -/
def Obligations.KeyWait : Prop :=
  ∀ (s : State) (x : Nibble),
    decodeWord (0xF#4 ++ x ++ 0x0A#8) = .ok (.ldKey x) ∧
    (∃ t, exec (.ldKey x) s = .next t ∧ t.result = .ok ∧
      match Config.pressedKey s.draws with
      | some k => (t.reg x).toNat = k.toNat ∧ s.ChangesOnly t { regs := [x], draw := true }
      | none   => t.pc = s.pc - 2 ∧ s.ChangesOnly t { pc := true, draw := true }) ∧
    (s.Fetches (0xF#4 ++ x ++ 0x0A#8) → ∃ t, step s = .next t ∧
      match Config.pressedKey s.draws with
      | some k => t.pc = s.pc + 2 ∧ (t.reg x).toNat = k.toNat
      | none   => t = { s with result := .ok, draws := s.draws + 1 })

/-- R111, R112, R113: the timers as an operand. -/
def Obligations.TimerTransfers : Prop :=
  ∀ (s : State) (x : Nibble),
    decodeWord (0xF#4 ++ x ++ 0x07#8) = .ok (.ldRegDelay x) ∧
    decodeWord (0xF#4 ++ x ++ 0x15#8) = .ok (.ldDelay x) ∧
    decodeWord (0xF#4 ++ x ++ 0x18#8) = .ok (.ldSound x) ∧
    (∃ t, exec (.ldRegDelay x) s = .next t ∧ t.result = .ok ∧ t.reg x = s.delayTimer ∧
      s.ChangesOnly t { regs := [x] }) ∧
    (∃ t, exec (.ldDelay x) s = .next t ∧ t.result = .ok ∧ t.delayTimer = s.reg x ∧
      s.ChangesOnly t { delay := true }) ∧
    (∃ t, exec (.ldSound x) s = .next t ∧ t.result = .ok ∧ t.soundTimer = s.reg x ∧
      s.ChangesOnly t { sound := true })

/-! ## The whole machine -/

/-- R21, R22, R24, R25, R35, R9: of all Steps, only those of the named instructions change `ir`, the stack, the framebuffer, a timer,
a byte of memory, or draw an answer. -/
def Obligations.OnlyNamedInstructionsWrite : Prop :=
  ∀ (s t : State), step s = .next t →
    (t.ir ≠ s.ir → ∃ i, decodeWord (s.wordAt s.pc.toNat) = .ok i ∧
      ((∃ nnn, i = .ldI nnn) ∨ ∃ x, i = .addI x ∨ i = .ldFont x)) ∧
    (t.sp ≠ s.sp ∨ t.stack ≠ s.stack → ∃ i, decodeWord (s.wordAt s.pc.toNat) = .ok i ∧
      (i = .ret ∨ ∃ nnn, i = .call nnn)) ∧
    (t.fb ≠ s.fb → ∃ i, decodeWord (s.wordAt s.pc.toNat) = .ok i ∧ (i = .cls ∨ ∃ x y n, i = .drw x y n)) ∧
    (t.delayTimer ≠ s.delayTimer → ∃ x, decodeWord (s.wordAt s.pc.toNat) = .ok (.ldDelay x)) ∧
    (t.soundTimer ≠ s.soundTimer → ∃ x, decodeWord (s.wordAt s.pc.toNat) = .ok (.ldSound x)) ∧
    (t.mem ≠ s.mem → ∃ x, decodeWord (s.wordAt s.pc.toNat) = .ok (.ldBcd x) ∨
      decodeWord (s.wordAt s.pc.toNat) = .ok (.storeRegs x)) ∧
    (t.draws = s.draws ∨ (t.draws = s.draws + 1 ∧ ∃ i, decodeWord (s.wordAt s.pc.toNat) = .ok i ∧
      ((∃ x nn, i = .rnd x nn) ∨ ∃ x, i = .skp x ∨ i = .sknp x ∨ i = .ldKey x)))

/-- R6, R26, R27: a Step that completes changes neither the parameters, nor `halted`, nor the fault mark; of the transactions only
`Init` gives parameters, only `Init` and a faulting `Step` write the fault mark, and no `Step`, faulting or not, writes `halted`. -/
def Obligations.ParametersFixed : Prop :=
  (∀ s t : State, step s = .next t → t.config = s.config ∧ t.halted = s.halted ∧ t.fault = s.fault) ∧
  (∀ (tr : Transaction) (s t : State), issue tr s = .ok t → (∀ cfg, tr ≠ .init cfg) →
    t.config = s.config ∧ (t.fault = s.fault ∨ tr = .step ∧ ∃ f, step s = .fault f ∧ t.fault = some f) ∧
    (tr = .step → t.halted = s.halted))

/-- R33, R20, R24, R71: a Step keeps memory inside 0x000..0xFFF and in canonical form, the framebuffer inside the screen, the return
addresses at most 0x1000 and `pc` at most 0x10FE. -/
def Obligations.StepKeepsTheInvariant : Prop :=
  ∀ s t : State, s.Inv → step s = .next t → t.Inv

/-- R33, R139 to R143: every transaction of the host keeps the invariant, whatever its arguments. -/
def Obligations.TransactionsKeepTheInvariant : Prop :=
  ∀ (tr : Transaction) (s t : State), s.Inv → issue tr s = .ok t → t.Inv

/-- R139: the state after reset meets the invariant. -/
def Obligations.ResetMeetsTheInvariant : Prop := State.reset.Inv

/-- R22, R30: stack entries at index `sp` or above are not observable: states that differ only in them step alike. -/
def Obligations.StaleStackUnobservable : Prop :=
  ∀ s t : State, s.SameButStale t → SameOutcome State.SameButStale (step s) (step t)

/-- R25: no instruction reads `soundTimer`: states that differ only in it step alike. -/
def Obligations.SoundTimerUnread : Prop :=
  ∀ (s : State) (b : Byte),
    SameOutcome (fun t u => u = { t with soundTimer := u.soundTimer }) (step s) (step { s with soundTimer := b })

/-- R153: once a run has ended, every further Step leaves the state as it is (but for `result`, the model's own), and ended. -/
def Obligations.EndedRunStays : Prop :=
  ∀ s : State, s.ended = true →
    step s = .next { s with result := .ok } ∧ ({ s with result := .ok } : State).ended = true

/-! ## The host's transactions (spec/60_exceptions.md, spec/70_reset_and_hazards.md, spec/20_memory.md) -/

/-- R139, R17: every field after `Init`, for every choice of the parameters. -/
def Obligations.InitState : Prop :=
  ∀ (s : State) (cfg : Config), ∃ t, issue (.init cfg) s = .ok t ∧ t.config = cfg ∧
    (∀ a, t.byteAt a = 0) ∧ (∀ r, t.reg r = 0) ∧ t.pc = 0x200 ∧ t.ir = 0 ∧ (∀ i, t.stackAt i = 0) ∧ t.sp.val = 0 ∧
    (∀ cx cy, t.pixel cx cy = 0) ∧ t.delayTimer = 0 ∧ t.soundTimer = 0 ∧ t.halted = true ∧ t.fault = none

/-- R140: every field after `ClearState`; memory below 0x200 keeps its contents. -/
def Obligations.ClearStateBaseline : Prop :=
  ∀ s : State, s.fault = none → ∃ t, issue .clearState s = .ok t ∧ t.result = .ok ∧ t.config = s.config ∧
    (∀ a, t.byteAt a = if a < 0x200 then s.byteAt a else 0) ∧ (∀ r, t.reg r = 0) ∧ t.pc = 0x200 ∧ t.ir = 0 ∧
    (∀ i, t.stackAt i = 0) ∧ t.sp.val = 0 ∧ (∀ cx cy, t.pixel cx cy = 0) ∧ t.delayTimer = 0 ∧ t.soundTimer = 0 ∧
    t.halted = true ∧ t.fault = none

/-- R141: after `ClearState` the state is that of `Init` but for the memory below 0x200, which keeps its contents (and `draws`, the
model's own); a second one changes nothing. -/
def Obligations.ClearStateIdempotent : Prop :=
  ∀ s t : State, issue .clearState s = .ok t →
    t = { State.init s.config with mem := t.mem, draws := s.draws } ∧
    (∀ a, t.byteAt a = if a < 0x200 then s.byteAt a else 0) ∧ issue .clearState t = .ok t

/-- R147: the first Step after `ClearState` fetches the two zero bytes at 0x200, which are no instruction. -/
def Obligations.FirstStepAfterClear : Prop :=
  ∀ s t : State, issue .clearState s = .ok t →
    t.Fetches 0x0000 ∧ issue .step t = .ok { t with pc := 0x202, result := .err .unrecognizedEncoding }

/-- R142: the image is copied to `pc` and up and nothing else changes; an image that does not fit is an error and writes nothing. With
no bytes and `pc` above 0x1000 the pseudocode's error is taken (entry 14). -/
def Obligations.LoadProgramCopies : Prop :=
  ∀ (s : State) (bytes : List Byte), s.fault = none →
    (0xE00 < bytes.length ∨ 0x1000 < s.pc.toNat + bytes.length →
      issue (.loadProgram bytes) s = .ok { s with result := .err .capacityExceeded }) ∧
    (bytes.length ≤ 0xE00 → s.pc.toNat + bytes.length ≤ 0x1000 →
      ∃ t, issue (.loadProgram bytes) s = .ok t ∧ t.result = .ok ∧
        (∀ i b, bytes[i]? = some b → t.byteAt (s.pc.toNat + i) = b) ∧
        s.ChangesOnly t { bytes := (s.pc.toNat, bytes.length) })

/-- R143: the table, or the default font, is copied to 0x50 and up and nothing else changes; a table over 432 bytes is refused. The
default font is 80 bytes (R6), so `LoadFont` without a table always completes. -/
def Obligations.LoadFontCopies : Prop :=
  ∀ (s : State) (given : Option (List Byte)) (table : List Byte), s.fault = none →
    table = given.getD s.config.defaultFont.toList →
    (given = none → table.length = 80) ∧
    (432 < table.length → issue (.loadFont given) s = .error .loadFontTooLarge) ∧
    (table.length ≤ 432 →
      ∃ t, issue (.loadFont given) s = .ok t ∧ t.result = .ok ∧
        (∀ i b, table[i]? = some b → t.byteAt (0x50 + i) = b) ∧
        s.ChangesOnly t { bytes := (0x50, table.length) })

/-- R127: each timer that is not zero goes down by one, a zero timer stays; nothing else changes. -/
def Obligations.TickCountsDown : Prop :=
  ∀ s : State, s.fault = none → ∃ t, issue .tick s = .ok t ∧
    t.delayTimer.toNat = s.delayTimer.toNat - 1 ∧ t.soundTimer.toNat = s.soundTimer.toNat - 1 ∧
    t = { s with delayTimer := t.delayTimer, soundTimer := t.soundTimer }

/-- R133: `SetHalted(b)` writes `halted` and nothing else, and besides `Init` and `ClearState` no other transaction writes it. -/
def Obligations.SetHaltedWritesHalted : Prop :=
  (∀ (s : State) (b : Bool), s.fault = none → issue (.setHalted b) s = .ok { s with halted := b }) ∧
  (∀ (tr : Transaction) (s t : State), issue tr s = .ok t → t.halted ≠ s.halted →
    tr = .clearState ∨ (∃ cfg, tr = .init cfg) ∨ ∃ b, tr = .setHalted b)

/-- R47: `DumpRange` reads `memory[s..e-1]`, both ends clamped to 4096, and nothing when `s >= e`. -/
def Obligations.DumpRangeReads : Prop :=
  ∀ (s : State) (start stop : Nat),
    (s.dumpRange start stop).length = min stop 4096 - min start 4096 ∧
    ∀ i, i < min stop 4096 - min start 4096 →
      (s.dumpRange start stop)[i]? = some (s.byteAt (min start 4096 + i))
end

