-- ==== Sys2Proof/Laws/Cells.lean ====
section
/-! SUPPORT. The laws of cells: a read after a write, and that every operation keeps the canonical form. The reads hold for any
list, in canonical form or not. -/

namespace Sys2Proof.Machine

variable {w : Nat} (allowed : Nat → Bool)

@[simp] theorem Cells.read_nil (a : Nat) : Cells.read ([] : List (Nat × BitVec w)) a = 0 := rfl

theorem Cells.read_filter (p : Nat → Bool) (l : List (Nat × BitVec w)) (a : Nat) :
    Cells.read (l.filter (fun c => p c.1)) a = if p a then Cells.read l a else 0 := by
  induction l with
  | nil => simp [Cells.read]
  | cons c rest ih =>
    by_cases hc : p c.1 = true
    · by_cases ha : c.1 = a
      · subst ha; simp [Cells.read, hc]
      · simp [Cells.read, hc, ha, ih]
    · by_cases ha : c.1 = a
      · subst ha; simp [hc, ih]
      · simp [Cells.read, hc, ha, ih]

theorem Cells.read_erase (l : List (Nat × BitVec w)) (a b : Nat) :
    Cells.read (Cells.erase l a) b = if b = a then 0 else Cells.read l b := by
  rw [Cells.erase, Cells.read_filter (fun k => k != a)]
  by_cases h : b = a <;> simp [h]

/-- The first entry of a key decides, so an insertion where the key is absent is read back. -/
theorem Cells.read_insert (l : List (Nat × BitVec w)) (a b : Nat) (u : BitVec w) (h : ∀ c ∈ l, c.1 ≠ a) :
    Cells.read (Cells.insert l a u) b = if b = a then u else Cells.read l b := by
  induction l with
  | nil =>
    by_cases hb : b = a
    · simp [Cells.insert, Cells.read, hb]
    · have hb' : ¬ a = b := fun e => hb e.symm
      simp [Cells.insert, Cells.read, hb, hb']
  | cons c rest ih =>
    have hc : c.1 ≠ a := h c (by simp)
    have ih' := ih (fun d hd => h d (by simp [hd]))
    by_cases hlt : a < c.1
    · by_cases hb : b = a
      · simp [Cells.insert, Cells.read, hlt, hb]
      · have hb' : ¬ a = b := fun e => hb e.symm
        simp [Cells.insert, Cells.read, hlt, hb, hb']
    · by_cases hb : b = a
      · subst hb; simp [Cells.insert, Cells.read, hlt, hc, ih']
      · simp [Cells.insert, Cells.read, hlt, ih', hb]

theorem Cells.mem_erase {l : List (Nat × BitVec w)} {a : Nat} {c : Nat × BitVec w} (h : c ∈ Cells.erase l a) :
    c ∈ l ∧ c.1 ≠ a := by
  simpa [Cells.erase] using h

/-- A read after a write: the value written at that key, what was there before at every other. -/
theorem Cells.read_write (l : List (Nat × BitVec w)) (a b : Nat) (u : BitVec w) :
    Cells.read (Cells.write l a u) b = if b = a then u else Cells.read l b := by
  by_cases hu : u = 0
  · simp [Cells.write, hu, Cells.read_erase]
  · simp only [Cells.write, hu, if_false]
    rw [Cells.read_insert _ _ _ _ (fun c hc => (Cells.mem_erase hc).2), Cells.read_erase]
    by_cases hb : b = a <;> simp [hb]

theorem Cells.mem_insert {l : List (Nat × BitVec w)} {a : Nat} {u : BitVec w} {c : Nat × BitVec w}
    (h : c ∈ Cells.insert l a u) : c = (a, u) ∨ c ∈ l := by
  induction l with
  | nil => simpa [Cells.insert] using h
  | cons d rest ih =>
    by_cases hlt : a < d.1
    · simpa [Cells.insert, hlt] using h
    · simp only [Cells.insert, hlt, if_false, List.mem_cons] at h ⊢
      rcases h with h | h
      · exact .inr (.inl h)
      · exact (ih h).imp id .inr

theorem Cells.mem_write {l : List (Nat × BitVec w)} {a : Nat} {u : BitVec w} {c : Nat × BitVec w}
    (h : c ∈ Cells.write l a u) : c = (a, u) ∨ c ∈ l := by
  by_cases hu : u = 0
  · exact .inr (Cells.mem_erase (by simpa [Cells.write, hu] using h)).1
  · rw [Cells.write, if_neg hu] at h
    exact (Cells.mem_insert h).imp id (fun h' => (Cells.mem_erase h').1)

theorem Cells.wf_cons (c : Nat × BitVec w) (rest : List (Nat × BitVec w)) :
    Cells.wf allowed (c :: rest) = true ↔
      allowed c.1 = true ∧ c.2 ≠ 0 ∧ (∀ d ∈ rest, c.1 < d.1) ∧ Cells.wf allowed rest = true := by
  simp [Cells.wf, and_assoc]

theorem Cells.wf_filter (p : Nat × BitVec w → Bool) (l : List (Nat × BitVec w)) (h : Cells.wf allowed l = true) :
    Cells.wf allowed (l.filter p) = true := by
  induction l with
  | nil => rfl
  | cons c rest ih =>
    rw [Cells.wf_cons] at h
    by_cases hc : p c = true
    · rw [List.filter_cons_of_pos hc, Cells.wf_cons]
      exact ⟨h.1, h.2.1, fun d hd => h.2.2.1 d (List.mem_filter.mp hd).1, ih h.2.2.2⟩
    · rw [List.filter_cons_of_neg hc]
      exact ih h.2.2.2

theorem Cells.wf_insert (l : List (Nat × BitVec w)) (a : Nat) (u : BitVec w) (h : Cells.wf allowed l = true)
    (ha : allowed a = true) (hu : u ≠ 0) (hl : ∀ c ∈ l, c.1 ≠ a) : Cells.wf allowed (Cells.insert l a u) = true := by
  induction l with
  | nil => rw [Cells.insert, Cells.wf_cons]; exact ⟨ha, hu, by simp, rfl⟩
  | cons c rest ih =>
    have hc := (Cells.wf_cons allowed c rest).mp h
    have hne : c.1 ≠ a := hl c (by simp)
    by_cases hlt : a < c.1
    · simp only [Cells.insert, hlt, if_true]
      rw [Cells.wf_cons]
      refine ⟨ha, hu, fun d hd => ?_, h⟩
      rcases List.mem_cons.mp hd with rfl | hd
      · exact hlt
      · exact Nat.lt_trans hlt (hc.2.2.1 d hd)
    · simp only [Cells.insert, hlt, if_false]
      rw [Cells.wf_cons]
      refine ⟨hc.1, hc.2.1, fun d hd => ?_, ih hc.2.2.2 (fun d hd => hl d (by simp [hd]))⟩
      rcases Cells.mem_insert hd with rfl | hd
      · show c.1 < a; omega
      · exact hc.2.2.1 d hd

/-- A write at an allowed key keeps the canonical form. -/
theorem Cells.wf_write (l : List (Nat × BitVec w)) (a : Nat) (u : BitVec w) (h : Cells.wf allowed l = true)
    (ha : allowed a = true) : Cells.wf allowed (Cells.write l a u) = true := by
  have he : Cells.wf allowed (Cells.erase l a) = true := Cells.wf_filter allowed _ l h
  by_cases hu : u = 0
  · simpa [Cells.write, hu] using he
  · simp only [Cells.write, hu, if_false]
    exact Cells.wf_insert allowed _ a u he ha hu (fun c hc => (Cells.mem_erase hc).2)

/-- Two lists in canonical form that read alike are equal. -/
theorem Cells.wf_ext {l m : List (Nat × BitVec w)} (hl : Cells.wf allowed l = true) (hm : Cells.wf allowed m = true)
    (h : ∀ a, Cells.read l a = Cells.read m a) : l = m := by
  have absent : ∀ (r : List (Nat × BitVec w)) (a : Nat), (∀ d ∈ r, a < d.1) → Cells.read r a = 0 := by
    intro r a hr
    induction r with
    | nil => rfl
    | cons d rest ih =>
      have := hr d (by simp)
      rw [Cells.read, if_neg (by omega)]
      exact ih (fun e he => hr e (by simp [he]))
  induction l generalizing m with
  | nil =>
    cases m with
    | nil => rfl
    | cons d rest =>
      have hd := (Cells.wf_cons allowed d rest).mp hm
      have := h d.1
      simp only [Cells.read, if_true] at this
      exact absurd this.symm hd.2.1
  | cons c l' ih =>
    have hc := (Cells.wf_cons allowed c l').mp hl
    cases m with
    | nil =>
      have := h c.1
      simp only [Cells.read, if_true] at this
      exact absurd this hc.2.1
    | cons d m' =>
      have hd := (Cells.wf_cons allowed d m').mp hm
      have hkey : c.1 = d.1 := by
        rcases Nat.lt_trichotomy c.1 d.1 with hlt | heq | hgt
        · have h1 := h c.1
          rw [absent (d :: m') c.1 (by
            intro e he
            rcases List.mem_cons.mp he with rfl | he
            · exact hlt
            · exact Nat.lt_trans hlt (hd.2.2.1 e he))] at h1
          simp only [Cells.read, if_true] at h1
          exact absurd h1 hc.2.1
        · exact heq
        · have h1 := h d.1
          rw [absent (c :: l') d.1 (by
            intro e he
            rcases List.mem_cons.mp he with rfl | he
            · exact hgt
            · exact Nat.lt_trans hgt (hc.2.2.1 e he))] at h1
          simp only [Cells.read, if_true] at h1
          exact absurd h1.symm hd.2.1
      have hval : c.2 = d.2 := by
        have h1 := h c.1
        simpa [Cells.read, hkey] using h1
      have hrest : l' = m' := by
        refine ih hc.2.2.2 hd.2.2.2 (fun a => ?_)
        by_cases ha : a = c.1
        · rw [ha, absent l' c.1 hc.2.2.1, hkey, absent m' d.1 hd.2.2.1]
        · have h1 := h a
          have ha' : ¬ c.1 = a := fun e => ha e.symm
          have ha'' : ¬ d.1 = a := fun e => ha (hkey.trans e).symm
          simpa [Cells.read, ha', ha''] using h1
      rw [hrest, Prod.ext hkey hval]

end Sys2Proof.Machine
end

