-- ==== Sys2Proof/Laws/Decode.lean ====
section
/-! SUPPORT. Words as numbers: the fields of a word, the words of the formats, a word as its own fields. A proof about the bits
of a word goes through these to arithmetic. -/

namespace Sys2Proof

/-- An append as a number. -/
theorem toNat_append_eq {n m : Nat} (a : BitVec n) (b : BitVec m) :
    (a ++ b).toNat = a.toNat * 2 ^ m + b.toNat := by
  rw [BitVec.toNat_append, ← Nat.shiftLeft_add_eq_or_of_lt b.isLt, Nat.shiftLeft_eq]

theorem toNat_formatNNN (op : Nibble) (nnn : Addr) :
    (formatNNN op nnn).toNat = op.toNat * 4096 + nnn.toNat := toNat_append_eq op nnn

theorem toNat_formatXNN (op x : Nibble) (nn : Byte) :
    (formatXNN op x nn).toNat = op.toNat * 4096 + x.toNat * 256 + nn.toNat := by
  refine (toNat_append_eq (op ++ x) nn).trans ?_
  rw [toNat_append_eq op x]; ring

theorem toNat_formatXYN (op x y n : Nibble) :
    (formatXYN op x y n).toNat = op.toNat * 4096 + x.toNat * 256 + y.toNat * 16 + n.toNat := by
  refine (toNat_append_eq (op ++ x ++ y) n).trans ?_
  rw [toNat_append_eq (op ++ x) y, toNat_append_eq op x]; ring

theorem toNat_bigEndian (hi lo : Byte) : (bigEndian hi lo).toNat = hi.toNat * 256 + lo.toNat :=
  toNat_append_eq hi lo

theorem toNat_opField (w : Word) : (opField w).toNat = w.toNat / 4096 := by
  have := w.isLt
  rw [opField, BitVec.extractLsb'_toNat, Nat.shiftRight_eq_div_pow]; omega

theorem toNat_xField (w : Word) : (xField w).toNat = w.toNat / 256 % 16 := by
  rw [xField, BitVec.extractLsb'_toNat, Nat.shiftRight_eq_div_pow]

theorem toNat_yField (w : Word) : (yField w).toNat = w.toNat / 16 % 16 := by
  rw [yField, BitVec.extractLsb'_toNat, Nat.shiftRight_eq_div_pow]

theorem toNat_nField (w : Word) : (nField w).toNat = w.toNat % 16 := by
  rw [nField, BitVec.extractLsb'_toNat, Nat.shiftRight_eq_div_pow]; omega

theorem toNat_nnField (w : Word) : (nnField w).toNat = w.toNat % 256 := by
  rw [nnField, BitVec.extractLsb'_toNat, Nat.shiftRight_eq_div_pow]; omega

theorem toNat_nnnField (w : Word) : (nnnField w).toNat = w.toNat % 4096 := by
  rw [nnnField, BitVec.extractLsb'_toNat, Nat.shiftRight_eq_div_pow]; omega

@[simp] theorem opField_formatNNN (op : Nibble) (nnn : Addr) : opField (formatNNN op nnn) = op := by
  apply BitVec.eq_of_toNat_eq; have := nnn.isLt
  rw [toNat_opField, toNat_formatNNN]; omega

@[simp] theorem nnnField_formatNNN (op : Nibble) (nnn : Addr) : nnnField (formatNNN op nnn) = nnn := by
  apply BitVec.eq_of_toNat_eq; have := nnn.isLt
  rw [toNat_nnnField, toNat_formatNNN]; omega

@[simp] theorem opField_formatXNN (op x : Nibble) (nn : Byte) : opField (formatXNN op x nn) = op := by
  apply BitVec.eq_of_toNat_eq; have := x.isLt; have := nn.isLt
  rw [toNat_opField, toNat_formatXNN]; omega

@[simp] theorem xField_formatXNN (op x : Nibble) (nn : Byte) : xField (formatXNN op x nn) = x := by
  apply BitVec.eq_of_toNat_eq; have := x.isLt; have := nn.isLt
  rw [toNat_xField, toNat_formatXNN]; omega

@[simp] theorem nnField_formatXNN (op x : Nibble) (nn : Byte) : nnField (formatXNN op x nn) = nn := by
  apply BitVec.eq_of_toNat_eq; have := x.isLt; have := nn.isLt
  rw [toNat_nnField, toNat_formatXNN]; omega

@[simp] theorem opField_formatXYN (op x y n : Nibble) : opField (formatXYN op x y n) = op := by
  apply BitVec.eq_of_toNat_eq; have := x.isLt; have := y.isLt; have := n.isLt
  rw [toNat_opField, toNat_formatXYN]; omega

@[simp] theorem xField_formatXYN (op x y n : Nibble) : xField (formatXYN op x y n) = x := by
  apply BitVec.eq_of_toNat_eq; have := x.isLt; have := y.isLt; have := n.isLt
  rw [toNat_xField, toNat_formatXYN]; omega

@[simp] theorem yField_formatXYN (op x y n : Nibble) : yField (formatXYN op x y n) = y := by
  apply BitVec.eq_of_toNat_eq; have := x.isLt; have := y.isLt; have := n.isLt
  rw [toNat_yField, toNat_formatXYN]; omega

@[simp] theorem nField_formatXYN (op x y n : Nibble) : nField (formatXYN op x y n) = n := by
  apply BitVec.eq_of_toNat_eq; have := x.isLt; have := y.isLt; have := n.isLt
  rw [toNat_nField, toNat_formatXYN]; omega

/-- A word is its family and address. -/
theorem formatNNN_fields (w : Word) : formatNNN (opField w) (nnnField w) = w := by
  apply BitVec.eq_of_toNat_eq
  rw [toNat_formatNNN, toNat_opField, toNat_nnnField]; omega

/-- A word is its family, register and byte. -/
theorem formatXNN_fields (w : Word) : formatXNN (opField w) (xField w) (nnField w) = w := by
  apply BitVec.eq_of_toNat_eq
  rw [toNat_formatXNN, toNat_opField, toNat_xField, toNat_nnField]; omega

/-- A word is its four nibbles. -/
theorem formatXYN_fields (w : Word) : formatXYN (opField w) (xField w) (yField w) (nField w) = w := by
  apply BitVec.eq_of_toNat_eq
  rw [toNat_formatXYN, toNat_opField, toNat_xField, toNat_yField, toNat_nField]; omega

/-- The two bytes of a word, read back big-endian, are the word. -/
theorem bigEndian_bytes (w : Word) : bigEndian (w.extractLsb' 8 8) (w.extractLsb' 0 8) = w := by
  apply BitVec.eq_of_toNat_eq; have := w.isLt
  rw [toNat_bigEndian, BitVec.extractLsb'_toNat, BitVec.extractLsb'_toNat, Nat.shiftRight_eq_div_pow,
    Nat.shiftRight_eq_div_pow]; omega

/-- The decoder rejects by the one name it has for a word. -/
theorem decodeWord_error {w : Word} {e : Reject} (h : decodeWord w = .error e) :
    e = .unrecognizedEncoding w ∧ decodeFamily w = none := by
  unfold decodeWord at h
  split at h
  · cases h
  · next hn => exact ⟨by cases h; rfl, hn⟩

theorem decodeWord_ok {w : Word} {i : Instr} (h : decodeWord w = .ok i) : decodeFamily w = some i := by
  unfold decodeWord at h
  split at h
  · next hs => cases h; exact hs
  · cases h

end Sys2Proof
end

