-- ==== Sys2Proof/Laws/Display.lean ====
section
/-! SUPPORT. What the compositor's operations do to each pixel and to the collision mark, and that they keep the framebuffer's
form. -/

namespace Sys2Proof.Machine

/-- Distinct positions of the grid have distinct keys. -/
theorem pixelKey_inj {cx cy dx dy : Nat} (hc : cx < 128) (hd : dx < 128) :
    pixelKey cx cy = pixelKey dx dy ↔ cx = dx ∧ cy = dy := by
  unfold pixelKey; constructor <;> intro h <;> omega

theorem fbWidth_le (m : FbMode) : m.width ≤ 128 := by cases m <;> decide

theorem fbHeight_pos (m : FbMode) : 0 < m.height := by cases m <;> decide

theorem Framebuffer.pixel_toggle (fb : Framebuffer) {cx cy dx dy : Nat} (hc : cx < 128) (hd : dx < 128) :
    Framebuffer.pixel (Framebuffer.toggle fb cx cy) dx dy =
      if dx = cx ∧ dy = cy then 1 - Framebuffer.pixel fb cx cy else Framebuffer.pixel fb dx dy := by
  rw [Framebuffer.pixel, Framebuffer.toggle, Cells.read_write]
  by_cases h : dx = cx ∧ dy = cy
  · rw [if_pos ((pixelKey_inj hd hc).mpr h), if_pos h]
  · rw [if_neg (fun e => h ((pixelKey_inj hd hc).mp e)), if_neg h]; rfl

/-- A toggle inside the grid keeps the framebuffer's form. -/
theorem Framebuffer.wf_toggle (mode : FbMode) (fb : Framebuffer) {cx cy : Nat} (h : Framebuffer.wf mode fb = true)
    (hx : cx < mode.width) (hy : cy < mode.height) : Framebuffer.wf mode (Framebuffer.toggle fb cx cy) = true := by
  refine Cells.wf_write _ _ _ _ h ?_
  have := fbWidth_le mode
  have h1 : (cy * 128 + cx) % 128 = cx := by omega
  have h2 : (cy * 128 + cx) / 128 = cy := by omega
  simp [pixelKey, h1, h2, hx, hy]

theorem pixel_bit (b : BitVec 1) : b = 0 ∨ b = 1 := by
  have := b.isLt
  rcases (show b.toNat = 0 ∨ b.toNat = 1 by omega) with h | h
  · exact .inl (BitVec.eq_of_toNat_eq h)
  · exact .inr (BitVec.eq_of_toNat_eq h)

/-- The bit a sprite row shows at column `dx`, for a row drawn from column `cx` on. -/
def bitAt (cx dx : Nat) (bits : List Bool) : Bool := cx ≤ dx && bits.getD (dx - cx) false

theorem bitAt_cons (cx dx : Nat) (bit : Bool) (bits : List Bool) :
    bitAt cx dx (bit :: bits) = if dx = cx then bit else bitAt (cx + 1) dx bits := by
  unfold bitAt
  by_cases h : dx = cx
  · simp [h]
  · by_cases hlt : cx ≤ dx
    · obtain ⟨k, rfl⟩ : ∃ k, dx = cx + 1 + k := ⟨dx - (cx + 1), by omega⟩
      have h1 : cx + 1 + k - cx = k + 1 := by omega
      have h2 : cx + 1 + k - (cx + 1) = k := by omega
      simp [h, hlt, h1, h2]
    · have h1 : ¬ cx + 1 ≤ dx := by omega
      simp [h, hlt, h1]

/-- One row: each pixel of the row inside the width is toggled iff its bit is set; a collision is noted iff such a pixel was on. -/
theorem drawRow_spec {width : Nat} (hw : width ≤ 128) (cx cy : Nat) (bits : List Bool) (k : Canvas) :
    (∀ dx dy, dx < width →
      Framebuffer.pixel (drawRow width cx cy bits k).fb dx dy =
        if dy = cy ∧ bitAt cx dx bits = true then 1 - Framebuffer.pixel k.fb dx dy else Framebuffer.pixel k.fb dx dy) ∧
    ((drawRow width cx cy bits k).hit = true ↔
      k.hit = true ∨ ∃ dx, dx < width ∧ bitAt cx dx bits = true ∧ Framebuffer.pixel k.fb dx cy = 1) := by
  induction bits generalizing cx k with
  | nil => simp [drawRow, bitAt]
  | cons bit bits ih =>
    by_cases hclip : width ≤ cx
    · have hno : ∀ dx, dx < width → bitAt cx dx (bit :: bits) = false := by
        intro dx hdx
        have : ¬ cx ≤ dx := by omega
        simp [bitAt, this]
      rw [drawRow, if_pos hclip]
      refine ⟨fun dx dy hdx => by simp [hno dx hdx], ?_⟩
      constructor
      · exact .inl
      · rintro (h | ⟨dx, hdx, hb, -⟩)
        · exact h
        · rw [hno dx hdx] at hb; cases hb
    · rw [drawRow, if_neg hclip]
      have hcx : cx < 128 := by omega
      have hself : bitAt (cx + 1) cx bits = false := by simp [bitAt]
      obtain ⟨ihp, ihh⟩ := ih (cx + 1) (if bit = true then drawPixel k cx cy else k)
      refine ⟨fun dx dy hdx => ?_, ?_⟩
      · rw [ihp dx dy hdx, bitAt_cons]
        cases bit with
        | false => by_cases h : dx = cx <;> simp [h, hself]
        | true =>
          simp only [if_true, drawPixel, Framebuffer.pixel_toggle k.fb hcx (show dx < 128 by omega)]
          by_cases h : dx = cx
          · subst h
            by_cases hy : dy = cy
            · subst hy; simp [hself]
            · simp [hself, hy]
          · simp [h]
      · rw [ihh]
        cases bit with
        | false =>
          simp only [bitAt_cons, Bool.false_eq_true, if_false]
          refine or_congr_right (exists_congr fun dx => and_congr_right fun _ => ?_)
          by_cases h : dx = cx <;> simp [h, hself]
        | true =>
          simp only [if_true, drawPixel, Bool.or_eq_true, decide_eq_true_eq, or_assoc]
          refine or_congr_right ?_
          constructor
          · rintro (h | ⟨dx, hdx, hb, hp⟩)
            · exact ⟨cx, by omega, by simp [bitAt_cons], h⟩
            · have hne : dx ≠ cx := by rintro rfl; rw [hself] at hb; cases hb
              rw [Framebuffer.pixel_toggle k.fb hcx (show dx < 128 by omega), if_neg (fun e => hne e.1)] at hp
              exact ⟨dx, hdx, by rw [bitAt_cons, if_neg hne]; exact hb, hp⟩
          · rintro ⟨dx, hdx, hb, hp⟩
            by_cases h : dx = cx
            · subst h; exact .inl hp
            · refine .inr ⟨dx, hdx, by rw [bitAt_cons, if_neg h] at hb; exact hb, ?_⟩
              rw [Framebuffer.pixel_toggle k.fb hcx (show dx < 128 by omega), if_neg (fun e => h e.1)]
              exact hp

/-- The bit of a sprite shown at a pixel, for rows drawn from column `cx` and row `cy` on. -/
def spriteAt (cx cy dx dy : Nat) (bytes : List Byte) : Bool :=
  cy ≤ dy && dy < cy + bytes.length && bitAt cx dx (rowBits (bytes.getD (dy - cy) 0))

theorem spriteAt_cons (cx cy dx dy : Nat) (b : Byte) (bytes : List Byte) :
    spriteAt cx cy dx dy (b :: bytes) =
      if dy = cy then bitAt cx dx (rowBits b) else spriteAt cx (cy + 1) dx dy bytes := by
  unfold spriteAt
  by_cases h : dy = cy
  · simp [h]
  · by_cases hle : cy ≤ dy
    · obtain ⟨j, rfl⟩ : ∃ j, dy = cy + 1 + j := ⟨dy - (cy + 1), by omega⟩
      have h1 : cy + 1 + j - cy = j + 1 := by omega
      have h2 : cy + 1 + j - (cy + 1) = j := by omega
      have h3 : (cy + 1 + j < cy + (bytes.length + 1)) = (cy + 1 + j < cy + 1 + bytes.length) := by
        apply propext; omega
      simp [h, hle, h1, h2, h3]
    · have h1 : ¬ cy + 1 ≤ dy := by omega
      simp [h, hle, h1]

/-- All rows: each pixel inside the width is toggled iff the sprite has a set bit there; a collision is noted iff such a pixel was
on. -/
theorem drawRows_spec {width : Nat} (hw : width ≤ 128) (cx cy : Nat) (bytes : List Byte) (k : Canvas) :
    (∀ dx dy, dx < width →
      Framebuffer.pixel (drawRows width cx cy bytes k).fb dx dy =
        if spriteAt cx cy dx dy bytes = true then 1 - Framebuffer.pixel k.fb dx dy else Framebuffer.pixel k.fb dx dy) ∧
    ((drawRows width cx cy bytes k).hit = true ↔
      k.hit = true ∨ ∃ dx dy, dx < width ∧ spriteAt cx cy dx dy bytes = true ∧ Framebuffer.pixel k.fb dx dy = 1) := by
  induction bytes generalizing cy k with
  | nil =>
    have hno : ∀ dx dy, spriteAt cx cy dx dy [] = false := by
      intro dx dy
      by_cases h : cy ≤ dy
      · have : ¬ dy < cy := by omega
        simp [spriteAt, this]
      · simp [spriteAt, h]
    simp [drawRows, hno]
  | cons b bytes ih =>
    have hself : ∀ dx, spriteAt cx (cy + 1) dx cy bytes = false := by intro dx; simp [spriteAt]
    obtain ⟨rowp, rowh⟩ := drawRow_spec hw cx cy (rowBits b) k
    obtain ⟨ihp, ihh⟩ := ih (cy + 1) (drawRow width cx cy (rowBits b) k)
    refine ⟨fun dx dy hdx => ?_, ?_⟩
    · rw [drawRows, ihp dx dy hdx, rowp dx dy hdx, spriteAt_cons]
      by_cases h : dy = cy
      · subst h; simp [hself]
      · simp [h]
    · rw [drawRows, ihh, rowh, or_assoc]
      refine or_congr_right ?_
      constructor
      · rintro (⟨dx, hdx, hb, hp⟩ | ⟨dx, dy, hdx, hb, hp⟩)
        · exact ⟨dx, cy, hdx, by rw [spriteAt_cons, if_pos rfl]; exact hb, hp⟩
        · have hne : dy ≠ cy := by rintro rfl; rw [hself] at hb; cases hb
          rw [rowp dx dy hdx, if_neg (fun e => hne e.1)] at hp
          exact ⟨dx, dy, hdx, by rw [spriteAt_cons, if_neg hne]; exact hb, hp⟩
      · rintro ⟨dx, dy, hdx, hb, hp⟩
        rw [spriteAt_cons] at hb
        by_cases h : dy = cy
        · subst h; rw [if_pos rfl] at hb; exact .inl ⟨dx, hdx, hb, hp⟩
        · rw [if_neg h] at hb
          refine .inr ⟨dx, dy, hdx, hb, ?_⟩
          rw [rowp dx dy hdx, if_neg (fun e => h e.1)]
          exact hp

/-- The bits of a row, by column. -/
theorem getD_rowBits (b : Byte) (c : Nat) : (rowBits b).getD c false = (decide (c < 8) && b.getLsbD (7 - c)) := by
  by_cases h : c < 8
  · obtain rfl | rfl | rfl | rfl | rfl | rfl | rfl | rfl :
        c = 0 ∨ c = 1 ∨ c = 2 ∨ c = 3 ∨ c = 4 ∨ c = 5 ∨ c = 6 ∨ c = 7 := by omega
    all_goals simp [rowBits]
  · rw [List.getD_eq_getElem?_getD, List.getElem?_eq_none (by simp [rowBits]; omega)]
    simp [h]

theorem Framebuffer.wf_drawRow (mode : FbMode) (cx cy : Nat) (bits : List Bool) (k : Canvas)
    (h : Framebuffer.wf mode k.fb = true) (hy : cy < mode.height) :
    Framebuffer.wf mode (drawRow mode.width cx cy bits k).fb = true := by
  induction bits generalizing cx k with
  | nil => exact h
  | cons bit bits ih =>
    rw [drawRow]
    split
    · exact h
    · next hx =>
      refine ih _ _ ?_
      cases bit
      · exact h
      · exact Framebuffer.wf_toggle mode k.fb h (by omega) hy

/-- Rows that fall on the screen keep the framebuffer's form. -/
theorem Framebuffer.wf_drawRows (mode : FbMode) (cx cy : Nat) (bytes : List Byte) (k : Canvas)
    (h : Framebuffer.wf mode k.fb = true) (hy : cy + bytes.length ≤ mode.height) :
    Framebuffer.wf mode (drawRows mode.width cx cy bytes k).fb = true := by
  induction bytes generalizing cy k with
  | nil => exact h
  | cons b bytes ih =>
    rw [List.length_cons] at hy
    exact ih (cy + 1) _ (Framebuffer.wf_drawRow mode cx cy _ k h (by omega)) (by omega)

end Sys2Proof.Machine
end

