-- ==== Sys2Proof/Laws/State.lean ====
section
/-! SUPPORT. For each update of the state, what every field is after it: one lemma per field, so that no proof unfolds a record
update. -/

namespace Sys2Proof.Machine

variable (s : State)

/-! `State.setReg` -/

@[simp] theorem State.setReg_config (x : Nibble) (b : Byte) : (s.setReg x b).config = s.config := rfl
@[simp] theorem State.setReg_mem (x : Nibble) (b : Byte) : (s.setReg x b).mem = s.mem := rfl
@[simp] theorem State.setReg_v (x : Nibble) (b : Byte) : (s.setReg x b).v = s.v.set x.toNat b := rfl
@[simp] theorem State.setReg_pc (x : Nibble) (b : Byte) : (s.setReg x b).pc = s.pc := rfl
@[simp] theorem State.setReg_ir (x : Nibble) (b : Byte) : (s.setReg x b).ir = s.ir := rfl
@[simp] theorem State.setReg_stack (x : Nibble) (b : Byte) : (s.setReg x b).stack = s.stack := rfl
@[simp] theorem State.setReg_sp (x : Nibble) (b : Byte) : (s.setReg x b).sp = s.sp := rfl
@[simp] theorem State.setReg_fb (x : Nibble) (b : Byte) : (s.setReg x b).fb = s.fb := rfl
@[simp] theorem State.setReg_delayTimer (x : Nibble) (b : Byte) : (s.setReg x b).delayTimer = s.delayTimer := rfl
@[simp] theorem State.setReg_soundTimer (x : Nibble) (b : Byte) : (s.setReg x b).soundTimer = s.soundTimer := rfl
@[simp] theorem State.setReg_halted (x : Nibble) (b : Byte) : (s.setReg x b).halted = s.halted := rfl
@[simp] theorem State.setReg_fault (x : Nibble) (b : Byte) : (s.setReg x b).fault = s.fault := rfl
@[simp] theorem State.setReg_result (x : Nibble) (b : Byte) : (s.setReg x b).result = s.result := rfl
@[simp] theorem State.setReg_draws (x : Nibble) (b : Byte) : (s.setReg x b).draws = s.draws := rfl

/-! `State.setFlag` -/

@[simp] theorem State.setFlag_config (b : Byte) : (s.setFlag b).config = s.config := rfl
@[simp] theorem State.setFlag_mem (b : Byte) : (s.setFlag b).mem = s.mem := rfl
@[simp] theorem State.setFlag_v (b : Byte) : (s.setFlag b).v = s.v.set (0xF : Nibble).toNat b := rfl
@[simp] theorem State.setFlag_pc (b : Byte) : (s.setFlag b).pc = s.pc := rfl
@[simp] theorem State.setFlag_ir (b : Byte) : (s.setFlag b).ir = s.ir := rfl
@[simp] theorem State.setFlag_stack (b : Byte) : (s.setFlag b).stack = s.stack := rfl
@[simp] theorem State.setFlag_sp (b : Byte) : (s.setFlag b).sp = s.sp := rfl
@[simp] theorem State.setFlag_fb (b : Byte) : (s.setFlag b).fb = s.fb := rfl
@[simp] theorem State.setFlag_delayTimer (b : Byte) : (s.setFlag b).delayTimer = s.delayTimer := rfl
@[simp] theorem State.setFlag_soundTimer (b : Byte) : (s.setFlag b).soundTimer = s.soundTimer := rfl
@[simp] theorem State.setFlag_halted (b : Byte) : (s.setFlag b).halted = s.halted := rfl
@[simp] theorem State.setFlag_fault (b : Byte) : (s.setFlag b).fault = s.fault := rfl
@[simp] theorem State.setFlag_result (b : Byte) : (s.setFlag b).result = s.result := rfl
@[simp] theorem State.setFlag_draws (b : Byte) : (s.setFlag b).draws = s.draws := rfl

/-! `State.setResultAndFlag` -/

@[simp] theorem State.setResultAndFlag_config (x : Nibble) (r b : Byte) : (s.setResultAndFlag x r b).config = s.config := rfl
@[simp] theorem State.setResultAndFlag_mem (x : Nibble) (r b : Byte) : (s.setResultAndFlag x r b).mem = s.mem := rfl
@[simp] theorem State.setResultAndFlag_pc (x : Nibble) (r b : Byte) : (s.setResultAndFlag x r b).pc = s.pc := rfl
@[simp] theorem State.setResultAndFlag_ir (x : Nibble) (r b : Byte) : (s.setResultAndFlag x r b).ir = s.ir := rfl
@[simp] theorem State.setResultAndFlag_stack (x : Nibble) (r b : Byte) : (s.setResultAndFlag x r b).stack = s.stack := rfl
@[simp] theorem State.setResultAndFlag_sp (x : Nibble) (r b : Byte) : (s.setResultAndFlag x r b).sp = s.sp := rfl
@[simp] theorem State.setResultAndFlag_fb (x : Nibble) (r b : Byte) : (s.setResultAndFlag x r b).fb = s.fb := rfl
@[simp] theorem State.setResultAndFlag_delayTimer (x : Nibble) (r b : Byte) : (s.setResultAndFlag x r b).delayTimer = s.delayTimer := rfl
@[simp] theorem State.setResultAndFlag_soundTimer (x : Nibble) (r b : Byte) : (s.setResultAndFlag x r b).soundTimer = s.soundTimer := rfl
@[simp] theorem State.setResultAndFlag_halted (x : Nibble) (r b : Byte) : (s.setResultAndFlag x r b).halted = s.halted := rfl
@[simp] theorem State.setResultAndFlag_fault (x : Nibble) (r b : Byte) : (s.setResultAndFlag x r b).fault = s.fault := rfl
@[simp] theorem State.setResultAndFlag_result (x : Nibble) (r b : Byte) : (s.setResultAndFlag x r b).result = s.result := rfl
@[simp] theorem State.setResultAndFlag_draws (x : Nibble) (r b : Byte) : (s.setResultAndFlag x r b).draws = s.draws := rfl

/-! `State.setPc` -/

@[simp] theorem State.setPc_config (a : Word) : (s.setPc a).config = s.config := rfl
@[simp] theorem State.setPc_mem (a : Word) : (s.setPc a).mem = s.mem := rfl
@[simp] theorem State.setPc_v (a : Word) : (s.setPc a).v = s.v := rfl
@[simp] theorem State.setPc_pc (a : Word) : (s.setPc a).pc = a := rfl
@[simp] theorem State.setPc_ir (a : Word) : (s.setPc a).ir = s.ir := rfl
@[simp] theorem State.setPc_stack (a : Word) : (s.setPc a).stack = s.stack := rfl
@[simp] theorem State.setPc_sp (a : Word) : (s.setPc a).sp = s.sp := rfl
@[simp] theorem State.setPc_fb (a : Word) : (s.setPc a).fb = s.fb := rfl
@[simp] theorem State.setPc_delayTimer (a : Word) : (s.setPc a).delayTimer = s.delayTimer := rfl
@[simp] theorem State.setPc_soundTimer (a : Word) : (s.setPc a).soundTimer = s.soundTimer := rfl
@[simp] theorem State.setPc_halted (a : Word) : (s.setPc a).halted = s.halted := rfl
@[simp] theorem State.setPc_fault (a : Word) : (s.setPc a).fault = s.fault := rfl
@[simp] theorem State.setPc_result (a : Word) : (s.setPc a).result = s.result := rfl
@[simp] theorem State.setPc_draws (a : Word) : (s.setPc a).draws = s.draws := rfl

/-! `State.setIr` -/

@[simp] theorem State.setIr_config (a : Word) : (s.setIr a).config = s.config := rfl
@[simp] theorem State.setIr_mem (a : Word) : (s.setIr a).mem = s.mem := rfl
@[simp] theorem State.setIr_v (a : Word) : (s.setIr a).v = s.v := rfl
@[simp] theorem State.setIr_pc (a : Word) : (s.setIr a).pc = s.pc := rfl
@[simp] theorem State.setIr_ir (a : Word) : (s.setIr a).ir = a := rfl
@[simp] theorem State.setIr_stack (a : Word) : (s.setIr a).stack = s.stack := rfl
@[simp] theorem State.setIr_sp (a : Word) : (s.setIr a).sp = s.sp := rfl
@[simp] theorem State.setIr_fb (a : Word) : (s.setIr a).fb = s.fb := rfl
@[simp] theorem State.setIr_delayTimer (a : Word) : (s.setIr a).delayTimer = s.delayTimer := rfl
@[simp] theorem State.setIr_soundTimer (a : Word) : (s.setIr a).soundTimer = s.soundTimer := rfl
@[simp] theorem State.setIr_halted (a : Word) : (s.setIr a).halted = s.halted := rfl
@[simp] theorem State.setIr_fault (a : Word) : (s.setIr a).fault = s.fault := rfl
@[simp] theorem State.setIr_result (a : Word) : (s.setIr a).result = s.result := rfl
@[simp] theorem State.setIr_draws (a : Word) : (s.setIr a).draws = s.draws := rfl

/-! `State.setDelay` -/

@[simp] theorem State.setDelay_config (b : Byte) : (s.setDelay b).config = s.config := rfl
@[simp] theorem State.setDelay_mem (b : Byte) : (s.setDelay b).mem = s.mem := rfl
@[simp] theorem State.setDelay_v (b : Byte) : (s.setDelay b).v = s.v := rfl
@[simp] theorem State.setDelay_pc (b : Byte) : (s.setDelay b).pc = s.pc := rfl
@[simp] theorem State.setDelay_ir (b : Byte) : (s.setDelay b).ir = s.ir := rfl
@[simp] theorem State.setDelay_stack (b : Byte) : (s.setDelay b).stack = s.stack := rfl
@[simp] theorem State.setDelay_sp (b : Byte) : (s.setDelay b).sp = s.sp := rfl
@[simp] theorem State.setDelay_fb (b : Byte) : (s.setDelay b).fb = s.fb := rfl
@[simp] theorem State.setDelay_delayTimer (b : Byte) : (s.setDelay b).delayTimer = b := rfl
@[simp] theorem State.setDelay_soundTimer (b : Byte) : (s.setDelay b).soundTimer = s.soundTimer := rfl
@[simp] theorem State.setDelay_halted (b : Byte) : (s.setDelay b).halted = s.halted := rfl
@[simp] theorem State.setDelay_fault (b : Byte) : (s.setDelay b).fault = s.fault := rfl
@[simp] theorem State.setDelay_result (b : Byte) : (s.setDelay b).result = s.result := rfl
@[simp] theorem State.setDelay_draws (b : Byte) : (s.setDelay b).draws = s.draws := rfl

/-! `State.setSound` -/

@[simp] theorem State.setSound_config (b : Byte) : (s.setSound b).config = s.config := rfl
@[simp] theorem State.setSound_mem (b : Byte) : (s.setSound b).mem = s.mem := rfl
@[simp] theorem State.setSound_v (b : Byte) : (s.setSound b).v = s.v := rfl
@[simp] theorem State.setSound_pc (b : Byte) : (s.setSound b).pc = s.pc := rfl
@[simp] theorem State.setSound_ir (b : Byte) : (s.setSound b).ir = s.ir := rfl
@[simp] theorem State.setSound_stack (b : Byte) : (s.setSound b).stack = s.stack := rfl
@[simp] theorem State.setSound_sp (b : Byte) : (s.setSound b).sp = s.sp := rfl
@[simp] theorem State.setSound_fb (b : Byte) : (s.setSound b).fb = s.fb := rfl
@[simp] theorem State.setSound_delayTimer (b : Byte) : (s.setSound b).delayTimer = s.delayTimer := rfl
@[simp] theorem State.setSound_soundTimer (b : Byte) : (s.setSound b).soundTimer = b := rfl
@[simp] theorem State.setSound_halted (b : Byte) : (s.setSound b).halted = s.halted := rfl
@[simp] theorem State.setSound_fault (b : Byte) : (s.setSound b).fault = s.fault := rfl
@[simp] theorem State.setSound_result (b : Byte) : (s.setSound b).result = s.result := rfl
@[simp] theorem State.setSound_draws (b : Byte) : (s.setSound b).draws = s.draws := rfl

/-! `State.countDraw` -/

@[simp] theorem State.countDraw_config : (s.countDraw).config = s.config := rfl
@[simp] theorem State.countDraw_mem : (s.countDraw).mem = s.mem := rfl
@[simp] theorem State.countDraw_v : (s.countDraw).v = s.v := rfl
@[simp] theorem State.countDraw_pc : (s.countDraw).pc = s.pc := rfl
@[simp] theorem State.countDraw_ir : (s.countDraw).ir = s.ir := rfl
@[simp] theorem State.countDraw_stack : (s.countDraw).stack = s.stack := rfl
@[simp] theorem State.countDraw_sp : (s.countDraw).sp = s.sp := rfl
@[simp] theorem State.countDraw_fb : (s.countDraw).fb = s.fb := rfl
@[simp] theorem State.countDraw_delayTimer : (s.countDraw).delayTimer = s.delayTimer := rfl
@[simp] theorem State.countDraw_soundTimer : (s.countDraw).soundTimer = s.soundTimer := rfl
@[simp] theorem State.countDraw_halted : (s.countDraw).halted = s.halted := rfl
@[simp] theorem State.countDraw_fault : (s.countDraw).fault = s.fault := rfl
@[simp] theorem State.countDraw_result : (s.countDraw).result = s.result := rfl
@[simp] theorem State.countDraw_draws : (s.countDraw).draws = s.draws + 1 := rfl

/-! `State.setByte` -/

@[simp] theorem State.setByte_config (a : Nat) (b : Byte) : (s.setByte a b).config = s.config := rfl
@[simp] theorem State.setByte_mem (a : Nat) (b : Byte) : (s.setByte a b).mem = Cells.write s.mem a b := rfl
@[simp] theorem State.setByte_v (a : Nat) (b : Byte) : (s.setByte a b).v = s.v := rfl
@[simp] theorem State.setByte_pc (a : Nat) (b : Byte) : (s.setByte a b).pc = s.pc := rfl
@[simp] theorem State.setByte_ir (a : Nat) (b : Byte) : (s.setByte a b).ir = s.ir := rfl
@[simp] theorem State.setByte_stack (a : Nat) (b : Byte) : (s.setByte a b).stack = s.stack := rfl
@[simp] theorem State.setByte_sp (a : Nat) (b : Byte) : (s.setByte a b).sp = s.sp := rfl
@[simp] theorem State.setByte_fb (a : Nat) (b : Byte) : (s.setByte a b).fb = s.fb := rfl
@[simp] theorem State.setByte_delayTimer (a : Nat) (b : Byte) : (s.setByte a b).delayTimer = s.delayTimer := rfl
@[simp] theorem State.setByte_soundTimer (a : Nat) (b : Byte) : (s.setByte a b).soundTimer = s.soundTimer := rfl
@[simp] theorem State.setByte_halted (a : Nat) (b : Byte) : (s.setByte a b).halted = s.halted := rfl
@[simp] theorem State.setByte_fault (a : Nat) (b : Byte) : (s.setByte a b).fault = s.fault := rfl
@[simp] theorem State.setByte_result (a : Nat) (b : Byte) : (s.setByte a b).result = s.result := rfl
@[simp] theorem State.setByte_draws (a : Nat) (b : Byte) : (s.setByte a b).draws = s.draws := rfl

/-! `State.push` -/

@[simp] theorem State.push_config (a : Word) (h : s.sp.val < Config.stackCapacity) : (s.push a h).config = s.config := rfl
@[simp] theorem State.push_mem (a : Word) (h : s.sp.val < Config.stackCapacity) : (s.push a h).mem = s.mem := rfl
@[simp] theorem State.push_v (a : Word) (h : s.sp.val < Config.stackCapacity) : (s.push a h).v = s.v := rfl
@[simp] theorem State.push_pc (a : Word) (h : s.sp.val < Config.stackCapacity) : (s.push a h).pc = s.pc := rfl
@[simp] theorem State.push_ir (a : Word) (h : s.sp.val < Config.stackCapacity) : (s.push a h).ir = s.ir := rfl
@[simp] theorem State.push_stack (a : Word) (h : s.sp.val < Config.stackCapacity) : (s.push a h).stack = Cells.write s.stack s.sp.val a := rfl
@[simp] theorem State.push_sp (a : Word) (h : s.sp.val < Config.stackCapacity) : (s.push a h).sp = ⟨s.sp.val + 1, Nat.succ_lt_succ h⟩ := rfl
@[simp] theorem State.push_fb (a : Word) (h : s.sp.val < Config.stackCapacity) : (s.push a h).fb = s.fb := rfl
@[simp] theorem State.push_delayTimer (a : Word) (h : s.sp.val < Config.stackCapacity) : (s.push a h).delayTimer = s.delayTimer := rfl
@[simp] theorem State.push_soundTimer (a : Word) (h : s.sp.val < Config.stackCapacity) : (s.push a h).soundTimer = s.soundTimer := rfl
@[simp] theorem State.push_halted (a : Word) (h : s.sp.val < Config.stackCapacity) : (s.push a h).halted = s.halted := rfl
@[simp] theorem State.push_fault (a : Word) (h : s.sp.val < Config.stackCapacity) : (s.push a h).fault = s.fault := rfl
@[simp] theorem State.push_result (a : Word) (h : s.sp.val < Config.stackCapacity) : (s.push a h).result = s.result := rfl
@[simp] theorem State.push_draws (a : Word) (h : s.sp.val < Config.stackCapacity) : (s.push a h).draws = s.draws := rfl

/-! `State.pop` -/

@[simp] theorem State.pop_config : (s.pop).config = s.config := rfl
@[simp] theorem State.pop_mem : (s.pop).mem = s.mem := rfl
@[simp] theorem State.pop_v : (s.pop).v = s.v := rfl
@[simp] theorem State.pop_pc : (s.pop).pc = s.stackAt (s.sp.val - 1) := rfl
@[simp] theorem State.pop_ir : (s.pop).ir = s.ir := rfl
@[simp] theorem State.pop_stack : (s.pop).stack = s.stack := rfl
@[simp] theorem State.pop_sp : (s.pop).sp = ⟨s.sp.val - 1, Nat.lt_of_le_of_lt (Nat.sub_le _ _) s.sp.isLt⟩ := rfl
@[simp] theorem State.pop_fb : (s.pop).fb = s.fb := rfl
@[simp] theorem State.pop_delayTimer : (s.pop).delayTimer = s.delayTimer := rfl
@[simp] theorem State.pop_soundTimer : (s.pop).soundTimer = s.soundTimer := rfl
@[simp] theorem State.pop_halted : (s.pop).halted = s.halted := rfl
@[simp] theorem State.pop_fault : (s.pop).fault = s.fault := rfl
@[simp] theorem State.pop_result : (s.pop).result = s.result := rfl
@[simp] theorem State.pop_draws : (s.pop).draws = s.draws := rfl

/-! `State.setFb` -/

@[simp] theorem State.setFb_config (fb : Framebuffer) : (s.setFb fb).config = s.config := rfl
@[simp] theorem State.setFb_mem (fb : Framebuffer) : (s.setFb fb).mem = s.mem := rfl
@[simp] theorem State.setFb_v (fb : Framebuffer) : (s.setFb fb).v = s.v := rfl
@[simp] theorem State.setFb_pc (fb : Framebuffer) : (s.setFb fb).pc = s.pc := rfl
@[simp] theorem State.setFb_ir (fb : Framebuffer) : (s.setFb fb).ir = s.ir := rfl
@[simp] theorem State.setFb_stack (fb : Framebuffer) : (s.setFb fb).stack = s.stack := rfl
@[simp] theorem State.setFb_sp (fb : Framebuffer) : (s.setFb fb).sp = s.sp := rfl
@[simp] theorem State.setFb_fb (fb : Framebuffer) : (s.setFb fb).fb = fb := rfl
@[simp] theorem State.setFb_delayTimer (fb : Framebuffer) : (s.setFb fb).delayTimer = s.delayTimer := rfl
@[simp] theorem State.setFb_soundTimer (fb : Framebuffer) : (s.setFb fb).soundTimer = s.soundTimer := rfl
@[simp] theorem State.setFb_halted (fb : Framebuffer) : (s.setFb fb).halted = s.halted := rfl
@[simp] theorem State.setFb_fault (fb : Framebuffer) : (s.setFb fb).fault = s.fault := rfl
@[simp] theorem State.setFb_result (fb : Framebuffer) : (s.setFb fb).result = s.result := rfl
@[simp] theorem State.setFb_draws (fb : Framebuffer) : (s.setFb fb).draws = s.draws := rfl

/-! `State.setResult` -/

@[simp] theorem State.setResult_config (r : Result) : (s.setResult r).config = s.config := rfl
@[simp] theorem State.setResult_mem (r : Result) : (s.setResult r).mem = s.mem := rfl
@[simp] theorem State.setResult_v (r : Result) : (s.setResult r).v = s.v := rfl
@[simp] theorem State.setResult_pc (r : Result) : (s.setResult r).pc = s.pc := rfl
@[simp] theorem State.setResult_ir (r : Result) : (s.setResult r).ir = s.ir := rfl
@[simp] theorem State.setResult_stack (r : Result) : (s.setResult r).stack = s.stack := rfl
@[simp] theorem State.setResult_sp (r : Result) : (s.setResult r).sp = s.sp := rfl
@[simp] theorem State.setResult_fb (r : Result) : (s.setResult r).fb = s.fb := rfl
@[simp] theorem State.setResult_delayTimer (r : Result) : (s.setResult r).delayTimer = s.delayTimer := rfl
@[simp] theorem State.setResult_soundTimer (r : Result) : (s.setResult r).soundTimer = s.soundTimer := rfl
@[simp] theorem State.setResult_halted (r : Result) : (s.setResult r).halted = s.halted := rfl
@[simp] theorem State.setResult_fault (r : Result) : (s.setResult r).fault = s.fault := rfl
@[simp] theorem State.setResult_result (r : Result) : (s.setResult r).result = r := rfl
@[simp] theorem State.setResult_draws (r : Result) : (s.setResult r).draws = s.draws := rfl

/-! `State.markFault` -/

@[simp] theorem State.markFault_config (f : Fault) : (s.markFault f).config = s.config := rfl
@[simp] theorem State.markFault_mem (f : Fault) : (s.markFault f).mem = s.mem := rfl
@[simp] theorem State.markFault_v (f : Fault) : (s.markFault f).v = s.v := rfl
@[simp] theorem State.markFault_pc (f : Fault) : (s.markFault f).pc = s.pc := rfl
@[simp] theorem State.markFault_ir (f : Fault) : (s.markFault f).ir = s.ir := rfl
@[simp] theorem State.markFault_stack (f : Fault) : (s.markFault f).stack = s.stack := rfl
@[simp] theorem State.markFault_sp (f : Fault) : (s.markFault f).sp = s.sp := rfl
@[simp] theorem State.markFault_fb (f : Fault) : (s.markFault f).fb = s.fb := rfl
@[simp] theorem State.markFault_delayTimer (f : Fault) : (s.markFault f).delayTimer = s.delayTimer := rfl
@[simp] theorem State.markFault_soundTimer (f : Fault) : (s.markFault f).soundTimer = s.soundTimer := rfl
@[simp] theorem State.markFault_halted (f : Fault) : (s.markFault f).halted = s.halted := rfl
@[simp] theorem State.markFault_fault (f : Fault) : (s.markFault f).fault = some f := rfl
@[simp] theorem State.markFault_result (f : Fault) : (s.markFault f).result = s.result := rfl
@[simp] theorem State.markFault_draws (f : Fault) : (s.markFault f).draws = s.draws := rfl

/-! `State.setHalted` -/

@[simp] theorem State.setHalted_config (b : Bool) : (s.setHalted b).config = s.config := rfl
@[simp] theorem State.setHalted_mem (b : Bool) : (s.setHalted b).mem = s.mem := rfl
@[simp] theorem State.setHalted_v (b : Bool) : (s.setHalted b).v = s.v := rfl
@[simp] theorem State.setHalted_pc (b : Bool) : (s.setHalted b).pc = s.pc := rfl
@[simp] theorem State.setHalted_ir (b : Bool) : (s.setHalted b).ir = s.ir := rfl
@[simp] theorem State.setHalted_stack (b : Bool) : (s.setHalted b).stack = s.stack := rfl
@[simp] theorem State.setHalted_sp (b : Bool) : (s.setHalted b).sp = s.sp := rfl
@[simp] theorem State.setHalted_fb (b : Bool) : (s.setHalted b).fb = s.fb := rfl
@[simp] theorem State.setHalted_delayTimer (b : Bool) : (s.setHalted b).delayTimer = s.delayTimer := rfl
@[simp] theorem State.setHalted_soundTimer (b : Bool) : (s.setHalted b).soundTimer = s.soundTimer := rfl
@[simp] theorem State.setHalted_halted (b : Bool) : (s.setHalted b).halted = b := rfl
@[simp] theorem State.setHalted_fault (b : Bool) : (s.setHalted b).fault = s.fault := rfl
@[simp] theorem State.setHalted_result (b : Bool) : (s.setHalted b).result = s.result := rfl
@[simp] theorem State.setHalted_draws (b : Bool) : (s.setHalted b).draws = s.draws := rfl

/-! `State.tick` -/

@[simp] theorem State.tick_config : (s.tick).config = s.config := rfl
@[simp] theorem State.tick_mem : (s.tick).mem = s.mem := rfl
@[simp] theorem State.tick_v : (s.tick).v = s.v := rfl
@[simp] theorem State.tick_pc : (s.tick).pc = s.pc := rfl
@[simp] theorem State.tick_ir : (s.tick).ir = s.ir := rfl
@[simp] theorem State.tick_stack : (s.tick).stack = s.stack := rfl
@[simp] theorem State.tick_sp : (s.tick).sp = s.sp := rfl
@[simp] theorem State.tick_fb : (s.tick).fb = s.fb := rfl
@[simp] theorem State.tick_delayTimer : (s.tick).delayTimer = countdown s.delayTimer := rfl
@[simp] theorem State.tick_soundTimer : (s.tick).soundTimer = countdown s.soundTimer := rfl
@[simp] theorem State.tick_halted : (s.tick).halted = s.halted := rfl
@[simp] theorem State.tick_fault : (s.tick).fault = s.fault := rfl
@[simp] theorem State.tick_result : (s.tick).result = s.result := rfl
@[simp] theorem State.tick_draws : (s.tick).draws = s.draws := rfl

/-! `State.skipIf` -/

@[simp] theorem State.skipIf_config (c : Bool) : (s.skipIf c).config = s.config := by cases c <;> rfl
@[simp] theorem State.skipIf_mem (c : Bool) : (s.skipIf c).mem = s.mem := by cases c <;> rfl
@[simp] theorem State.skipIf_v (c : Bool) : (s.skipIf c).v = s.v := by cases c <;> rfl
@[simp] theorem State.skipIf_pc (c : Bool) : (s.skipIf c).pc = if c then s.pc + 2 else s.pc := by cases c <;> rfl
@[simp] theorem State.skipIf_ir (c : Bool) : (s.skipIf c).ir = s.ir := by cases c <;> rfl
@[simp] theorem State.skipIf_stack (c : Bool) : (s.skipIf c).stack = s.stack := by cases c <;> rfl
@[simp] theorem State.skipIf_sp (c : Bool) : (s.skipIf c).sp = s.sp := by cases c <;> rfl
@[simp] theorem State.skipIf_fb (c : Bool) : (s.skipIf c).fb = s.fb := by cases c <;> rfl
@[simp] theorem State.skipIf_delayTimer (c : Bool) : (s.skipIf c).delayTimer = s.delayTimer := by cases c <;> rfl
@[simp] theorem State.skipIf_soundTimer (c : Bool) : (s.skipIf c).soundTimer = s.soundTimer := by cases c <;> rfl
@[simp] theorem State.skipIf_halted (c : Bool) : (s.skipIf c).halted = s.halted := by cases c <;> rfl
@[simp] theorem State.skipIf_fault (c : Bool) : (s.skipIf c).fault = s.fault := by cases c <;> rfl
@[simp] theorem State.skipIf_result (c : Bool) : (s.skipIf c).result = s.result := by cases c <;> rfl
@[simp] theorem State.skipIf_draws (c : Bool) : (s.skipIf c).draws = s.draws := by cases c <;> rfl

/-! `State.maskedRandom` -/

@[simp] theorem State.maskedRandom_config (x : Nibble) (nn r : Byte) : (s.maskedRandom x nn r).config = s.config := rfl
@[simp] theorem State.maskedRandom_mem (x : Nibble) (nn r : Byte) : (s.maskedRandom x nn r).mem = s.mem := rfl
@[simp] theorem State.maskedRandom_v (x : Nibble) (nn r : Byte) : (s.maskedRandom x nn r).v = s.v.set x.toNat (r &&& nn) := rfl
@[simp] theorem State.maskedRandom_pc (x : Nibble) (nn r : Byte) : (s.maskedRandom x nn r).pc = s.pc := rfl
@[simp] theorem State.maskedRandom_ir (x : Nibble) (nn r : Byte) : (s.maskedRandom x nn r).ir = s.ir := rfl
@[simp] theorem State.maskedRandom_stack (x : Nibble) (nn r : Byte) : (s.maskedRandom x nn r).stack = s.stack := rfl
@[simp] theorem State.maskedRandom_sp (x : Nibble) (nn r : Byte) : (s.maskedRandom x nn r).sp = s.sp := rfl
@[simp] theorem State.maskedRandom_fb (x : Nibble) (nn r : Byte) : (s.maskedRandom x nn r).fb = s.fb := rfl
@[simp] theorem State.maskedRandom_delayTimer (x : Nibble) (nn r : Byte) : (s.maskedRandom x nn r).delayTimer = s.delayTimer := rfl
@[simp] theorem State.maskedRandom_soundTimer (x : Nibble) (nn r : Byte) : (s.maskedRandom x nn r).soundTimer = s.soundTimer := rfl
@[simp] theorem State.maskedRandom_halted (x : Nibble) (nn r : Byte) : (s.maskedRandom x nn r).halted = s.halted := rfl
@[simp] theorem State.maskedRandom_fault (x : Nibble) (nn r : Byte) : (s.maskedRandom x nn r).fault = s.fault := rfl
@[simp] theorem State.maskedRandom_result (x : Nibble) (nn r : Byte) : (s.maskedRandom x nn r).result = s.result := rfl
@[simp] theorem State.maskedRandom_draws (x : Nibble) (nn r : Byte) : (s.maskedRandom x nn r).draws = s.draws := rfl

/-! `State.storeBytes` -/

@[simp] theorem State.storeBytes_config (a : Nat) (bytes : List Byte) : (s.storeBytes a bytes).config = s.config := by
  induction bytes generalizing s a with
  | nil => rfl
  | cons b rest ih => simp [State.storeBytes, ih]

@[simp] theorem State.storeBytes_v (a : Nat) (bytes : List Byte) : (s.storeBytes a bytes).v = s.v := by
  induction bytes generalizing s a with
  | nil => rfl
  | cons b rest ih => simp [State.storeBytes, ih]

@[simp] theorem State.storeBytes_pc (a : Nat) (bytes : List Byte) : (s.storeBytes a bytes).pc = s.pc := by
  induction bytes generalizing s a with
  | nil => rfl
  | cons b rest ih => simp [State.storeBytes, ih]

@[simp] theorem State.storeBytes_ir (a : Nat) (bytes : List Byte) : (s.storeBytes a bytes).ir = s.ir := by
  induction bytes generalizing s a with
  | nil => rfl
  | cons b rest ih => simp [State.storeBytes, ih]

@[simp] theorem State.storeBytes_stack (a : Nat) (bytes : List Byte) : (s.storeBytes a bytes).stack = s.stack := by
  induction bytes generalizing s a with
  | nil => rfl
  | cons b rest ih => simp [State.storeBytes, ih]

@[simp] theorem State.storeBytes_sp (a : Nat) (bytes : List Byte) : (s.storeBytes a bytes).sp = s.sp := by
  induction bytes generalizing s a with
  | nil => rfl
  | cons b rest ih => simp [State.storeBytes, ih]

@[simp] theorem State.storeBytes_fb (a : Nat) (bytes : List Byte) : (s.storeBytes a bytes).fb = s.fb := by
  induction bytes generalizing s a with
  | nil => rfl
  | cons b rest ih => simp [State.storeBytes, ih]

@[simp] theorem State.storeBytes_delayTimer (a : Nat) (bytes : List Byte) : (s.storeBytes a bytes).delayTimer = s.delayTimer := by
  induction bytes generalizing s a with
  | nil => rfl
  | cons b rest ih => simp [State.storeBytes, ih]

@[simp] theorem State.storeBytes_soundTimer (a : Nat) (bytes : List Byte) : (s.storeBytes a bytes).soundTimer = s.soundTimer := by
  induction bytes generalizing s a with
  | nil => rfl
  | cons b rest ih => simp [State.storeBytes, ih]

@[simp] theorem State.storeBytes_halted (a : Nat) (bytes : List Byte) : (s.storeBytes a bytes).halted = s.halted := by
  induction bytes generalizing s a with
  | nil => rfl
  | cons b rest ih => simp [State.storeBytes, ih]

@[simp] theorem State.storeBytes_fault (a : Nat) (bytes : List Byte) : (s.storeBytes a bytes).fault = s.fault := by
  induction bytes generalizing s a with
  | nil => rfl
  | cons b rest ih => simp [State.storeBytes, ih]

@[simp] theorem State.storeBytes_result (a : Nat) (bytes : List Byte) : (s.storeBytes a bytes).result = s.result := by
  induction bytes generalizing s a with
  | nil => rfl
  | cons b rest ih => simp [State.storeBytes, ih]

@[simp] theorem State.storeBytes_draws (a : Nat) (bytes : List Byte) : (s.storeBytes a bytes).draws = s.draws := by
  induction bytes generalizing s a with
  | nil => rfl
  | cons b rest ih => simp [State.storeBytes, ih]

/-! `State.setRegs` -/

@[simp] theorem State.setRegs_config (a : Nat) (bytes : List Byte) : (s.setRegs a bytes).config = s.config := by
  induction bytes generalizing s a with
  | nil => rfl
  | cons b rest ih => simp [State.setRegs, ih]

@[simp] theorem State.setRegs_mem (a : Nat) (bytes : List Byte) : (s.setRegs a bytes).mem = s.mem := by
  induction bytes generalizing s a with
  | nil => rfl
  | cons b rest ih => simp [State.setRegs, ih]

@[simp] theorem State.setRegs_pc (a : Nat) (bytes : List Byte) : (s.setRegs a bytes).pc = s.pc := by
  induction bytes generalizing s a with
  | nil => rfl
  | cons b rest ih => simp [State.setRegs, ih]

@[simp] theorem State.setRegs_ir (a : Nat) (bytes : List Byte) : (s.setRegs a bytes).ir = s.ir := by
  induction bytes generalizing s a with
  | nil => rfl
  | cons b rest ih => simp [State.setRegs, ih]

@[simp] theorem State.setRegs_stack (a : Nat) (bytes : List Byte) : (s.setRegs a bytes).stack = s.stack := by
  induction bytes generalizing s a with
  | nil => rfl
  | cons b rest ih => simp [State.setRegs, ih]

@[simp] theorem State.setRegs_sp (a : Nat) (bytes : List Byte) : (s.setRegs a bytes).sp = s.sp := by
  induction bytes generalizing s a with
  | nil => rfl
  | cons b rest ih => simp [State.setRegs, ih]

@[simp] theorem State.setRegs_fb (a : Nat) (bytes : List Byte) : (s.setRegs a bytes).fb = s.fb := by
  induction bytes generalizing s a with
  | nil => rfl
  | cons b rest ih => simp [State.setRegs, ih]

@[simp] theorem State.setRegs_delayTimer (a : Nat) (bytes : List Byte) : (s.setRegs a bytes).delayTimer = s.delayTimer := by
  induction bytes generalizing s a with
  | nil => rfl
  | cons b rest ih => simp [State.setRegs, ih]

@[simp] theorem State.setRegs_soundTimer (a : Nat) (bytes : List Byte) : (s.setRegs a bytes).soundTimer = s.soundTimer := by
  induction bytes generalizing s a with
  | nil => rfl
  | cons b rest ih => simp [State.setRegs, ih]

@[simp] theorem State.setRegs_halted (a : Nat) (bytes : List Byte) : (s.setRegs a bytes).halted = s.halted := by
  induction bytes generalizing s a with
  | nil => rfl
  | cons b rest ih => simp [State.setRegs, ih]

@[simp] theorem State.setRegs_fault (a : Nat) (bytes : List Byte) : (s.setRegs a bytes).fault = s.fault := by
  induction bytes generalizing s a with
  | nil => rfl
  | cons b rest ih => simp [State.setRegs, ih]

@[simp] theorem State.setRegs_result (a : Nat) (bytes : List Byte) : (s.setRegs a bytes).result = s.result := by
  induction bytes generalizing s a with
  | nil => rfl
  | cons b rest ih => simp [State.setRegs, ih]

@[simp] theorem State.setRegs_draws (a : Nat) (bytes : List Byte) : (s.setRegs a bytes).draws = s.draws := by
  induction bytes generalizing s a with
  | nil => rfl
  | cons b rest ih => simp [State.setRegs, ih]

/-! `State.awaitKey` -/

@[simp] theorem State.awaitKey_config (x : Nibble) (answer : Option Nibble) : (s.awaitKey x answer).config = s.config := by
  cases answer <;> rfl

@[simp] theorem State.awaitKey_mem (x : Nibble) (answer : Option Nibble) : (s.awaitKey x answer).mem = s.mem := by
  cases answer <;> rfl

@[simp] theorem State.awaitKey_ir (x : Nibble) (answer : Option Nibble) : (s.awaitKey x answer).ir = s.ir := by
  cases answer <;> rfl

@[simp] theorem State.awaitKey_stack (x : Nibble) (answer : Option Nibble) : (s.awaitKey x answer).stack = s.stack := by
  cases answer <;> rfl

@[simp] theorem State.awaitKey_sp (x : Nibble) (answer : Option Nibble) : (s.awaitKey x answer).sp = s.sp := by
  cases answer <;> rfl

@[simp] theorem State.awaitKey_fb (x : Nibble) (answer : Option Nibble) : (s.awaitKey x answer).fb = s.fb := by
  cases answer <;> rfl

@[simp] theorem State.awaitKey_delayTimer (x : Nibble) (answer : Option Nibble) : (s.awaitKey x answer).delayTimer = s.delayTimer := by
  cases answer <;> rfl

@[simp] theorem State.awaitKey_soundTimer (x : Nibble) (answer : Option Nibble) : (s.awaitKey x answer).soundTimer = s.soundTimer := by
  cases answer <;> rfl

@[simp] theorem State.awaitKey_halted (x : Nibble) (answer : Option Nibble) : (s.awaitKey x answer).halted = s.halted := by
  cases answer <;> rfl

@[simp] theorem State.awaitKey_fault (x : Nibble) (answer : Option Nibble) : (s.awaitKey x answer).fault = s.fault := by
  cases answer <;> rfl

@[simp] theorem State.awaitKey_result (x : Nibble) (answer : Option Nibble) : (s.awaitKey x answer).result = s.result := by
  cases answer <;> rfl

@[simp] theorem State.awaitKey_draws (x : Nibble) (answer : Option Nibble) : (s.awaitKey x answer).draws = s.draws := by
  cases answer <;> rfl

end Sys2Proof.Machine
end

