-- ==== Sys2Proof/Laws/Memory.lean ====
section
/-! SUPPORT. What the memory and stack operations do: the bytes read back, the range check, the canonical form kept. -/

namespace Sys2Proof.Machine

theorem State.byteAt_setByte (s : State) (a b : Nat) (v : Byte) :
    (s.setByte a v).byteAt b = if b = a then v else s.byteAt b := Cells.read_write s.mem a b v

/-- Consecutive bytes stored: each address of the range holds its byte, every other what it held. -/
theorem State.byteAt_storeBytes (s : State) (a b : Nat) (bytes : List Byte) :
    (s.storeBytes a bytes).byteAt b =
      if a ≤ b ∧ b < a + bytes.length then bytes.getD (b - a) 0 else s.byteAt b := by
  induction bytes generalizing s a with
  | nil => rw [if_neg (by simp)]; rfl
  | cons v rest ih =>
    rw [State.storeBytes, ih, State.byteAt_setByte]
    by_cases hb : b = a
    · subst hb; rw [if_neg (by omega), if_pos rfl, if_pos (by simp)]; simp
    · by_cases hr : a + 1 ≤ b ∧ b < a + 1 + rest.length
      · obtain ⟨k, rfl⟩ : ∃ k, b = a + 1 + k := ⟨b - (a + 1), by omega⟩
        rw [if_pos hr, if_pos (by simp; omega)]
        have h1 : a + 1 + k - (a + 1) = k := by omega
        have h2 : a + 1 + k - a = k + 1 := by omega
        simp [h1, h2]
      · rw [if_neg hr, if_neg hb, if_neg (by simp; omega)]

@[simp] theorem State.length_bytesFrom (s : State) (a n : Nat) : (s.bytesFrom a n).length = n := by
  induction n generalizing a with
  | zero => rfl
  | succ n ih => simp [State.bytesFrom, ih]

theorem State.getElem?_bytesFrom (s : State) (a n i : Nat) :
    (s.bytesFrom a n)[i]? = if i < n then some (s.byteAt (a + i)) else none := by
  induction n generalizing a i with
  | zero => simp [State.bytesFrom]
  | succ n ih =>
    cases i with
    | zero => simp [State.bytesFrom]
    | succ i =>
      have : a + 1 + i = a + (i + 1) := by omega
      simp [State.bytesFrom, ih, this]

/-- The bytes read depend on the bytes of memory alone. -/
theorem State.bytesFrom_congr {s t : State} (h : ∀ a, t.byteAt a = s.byteAt a) (a n : Nat) :
    t.bytesFrom a n = s.bytesFrom a n := by
  induction n generalizing a with
  | zero => rfl
  | succ n ih => simp [State.bytesFrom, ih, h]

/-- The range check fails exactly when the last address is above 0xFFF. -/
theorem checkRange_eq (a n : Nat) (kind : AccessKind) :
    checkRange a n kind = if n = 0 ∨ a + n ≤ 0x1000 then none else some (.memoryOutOfRange (max a 0x1000) kind) := by
  unfold checkRange
  by_cases h : n = 0 ∨ a + n ≤ 0x1000
  · rw [if_neg (by omega), if_pos h]
  · rw [if_pos (by omega), if_neg h]

theorem State.memRead_eq (s : State) (a n : Nat) :
    s.memRead a n = if n = 0 ∨ a + n ≤ 0x1000 then .ok (s.bytesFrom a n)
      else .error (.memoryOutOfRange (max a 0x1000) .read) := by
  rw [State.memRead, checkRange_eq]
  split <;> simp_all

theorem State.memWrite_eq (s : State) (a : Nat) (bytes : List Byte) :
    s.memWrite a bytes = if bytes.length = 0 ∨ a + bytes.length ≤ 0x1000 then .ok (s.storeBytes a bytes)
      else .error (.memoryOutOfRange (max a 0x1000) .write) := by
  rw [State.memWrite, checkRange_eq]
  split <;> simp_all

/-- A store inside 0x000..0xFFF keeps memory in canonical form. -/
theorem State.memory_wf_storeBytes (s : State) (a : Nat) (bytes : List Byte) (h : Memory.wf s.mem = true)
    (hr : a + bytes.length ≤ 0x1000) : Memory.wf (s.storeBytes a bytes).mem = true := by
  induction bytes generalizing s a with
  | nil => exact h
  | cons v rest ih =>
    rw [List.length_cons] at hr
    refine ih (s.setByte a v) (a + 1) ?_ (by omega)
    exact Cells.wf_write _ _ _ _ h (decide_eq_true (show a < 4096 by omega))

theorem State.stackAt_push (s : State) (a : Word) (h : s.sp.val < Config.stackCapacity) (i : Nat) :
    (s.push a h).stackAt i = if i = s.sp.val then a else s.stackAt i := Cells.read_write s.stack s.sp.val i a

/-- A push of a post-fetch `pc` keeps the stack's form. -/
theorem State.stack_wf_push (s : State) (a : Word) (h : s.sp.val < Config.stackCapacity)
    (hs : Stack.wf s.stack = true) (ha : a.toNat ≤ 0x1000) : Stack.wf (s.push a h).stack = true := by
  rw [Stack.wf, Bool.and_eq_true, List.all_eq_true] at hs ⊢
  refine ⟨Cells.wf_write _ _ _ _ hs.1 (by simpa using h), fun c hc => ?_⟩
  rcases Cells.mem_write hc with rfl | hc
  · simpa using ha
  · exact hs.2 c hc

/-- Every entry of a stack in good form is at most 0x1000, the unlisted ones being 0. -/
theorem State.stackAt_le (s : State) (hs : Stack.wf s.stack = true) (i : Nat) : (s.stackAt i).toNat ≤ 0x1000 := by
  rw [Stack.wf, Bool.and_eq_true, List.all_eq_true] at hs
  have h := hs.2
  revert h
  rw [State.stackAt]
  generalize s.stack = l
  intro h
  induction l with
  | nil => simp
  | cons c rest ih =>
    rw [Cells.read]
    split
    · simpa using h c (by simp)
    · exact ih (fun d hd => h d (by simp [hd]))

end Sys2Proof.Machine
end

