-- ==== Sys2Proof/Laws/Registers.lean ====
section
/-! SUPPORT. What the register operations do. -/

namespace Sys2Proof.Machine

theorem State.reg_setReg (s : State) (x r : Nibble) (b : Byte) :
    (s.setReg x b).reg r = if r = x then b else s.reg r := by
  simp only [State.reg, State.setReg_v, Vector.getElem_set]
  by_cases h : r = x
  · simp [h]
  · have : ¬ x.toNat = r.toNat := fun e => h (BitVec.eq_of_toNat_eq e.symm)
    simp [h, this]

theorem State.reg_setFlag (s : State) (r : Nibble) (b : Byte) :
    (s.setFlag b).reg r = if r = 0xF then b else s.reg r := s.reg_setReg 0xF r b

/-- The flag comes last: with `x` = F it is what `VF` holds (R84). -/
theorem State.reg_setResultAndFlag (s : State) (x r : Nibble) (b f : Byte) :
    (s.setResultAndFlag x b f).reg r = if r = 0xF then f else if r = x then b else s.reg r := by
  rw [State.setResultAndFlag, State.reg_setFlag, State.reg_setReg]

/-- The loop of `Fx65`: the registers of the range hold their bytes, the others what they held. -/
theorem State.reg_setRegs (s : State) (i : Nat) (bytes : List Byte) (hi : i + bytes.length ≤ 16) (r : Nibble) :
    (s.setRegs i bytes).reg r =
      if i ≤ r.toNat ∧ r.toNat < i + bytes.length then bytes.getD (r.toNat - i) 0 else s.reg r := by
  induction bytes generalizing s i with
  | nil => rw [if_neg (by simp)]; rfl
  | cons b rest ih =>
    rw [List.length_cons] at hi
    rw [State.setRegs, ih _ _ (by omega), State.reg_setReg, List.length_cons]
    have hx : (BitVec.ofNat 4 i).toNat = i := by rw [BitVec.toNat_ofNat]; omega
    by_cases hr : r = BitVec.ofNat 4 i
    · have hri : r.toNat = i := by rw [hr, hx]
      rw [if_neg (by omega), if_pos hr, if_pos (by omega), hri]; simp
    · have hri : r.toNat ≠ i := fun e => hr (BitVec.eq_of_toNat_eq (by rw [hx, e]))
      by_cases hin : i + 1 ≤ r.toNat ∧ r.toNat < i + 1 + rest.length
      · obtain ⟨k, hk⟩ : ∃ k, r.toNat = i + 1 + k := ⟨r.toNat - (i + 1), by omega⟩
        have h1 : i + 1 + k - (i + 1) = k := by omega
        have h2 : i + 1 + k - i = k + 1 := by omega
        rw [if_pos hin, if_pos (by omega), hk, h1, h2]; simp
      · rw [if_neg hin, if_neg hr, if_neg (by omega)]

@[simp] theorem State.length_regsUpTo (s : State) (x : Nibble) : (s.regsUpTo x).length = x.toNat + 1 := by
  have := x.isLt
  simp [State.regsUpTo]; omega

theorem State.getD_regsUpTo (s : State) (x r : Nibble) (h : r.toNat ≤ x.toNat) :
    (s.regsUpTo x).getD r.toNat 0 = s.reg r := by
  have hr := r.isLt
  have hl : r.toNat < (s.regsUpTo x).length := by rw [State.length_regsUpTo]; omega
  rw [List.getD_eq_getElem?_getD, List.getElem?_eq_getElem hl]
  simp [State.regsUpTo, State.reg]

end Sys2Proof.Machine
end

