-- ==== Sys2Proof/Laws/Operands.lean ====
section
/-! SUPPORT. The operand forms and flags as numbers: what each gives, once. -/

namespace Sys2Proof.Machine

theorem toNat_addrOperand (nnn : Addr) : (addrOperand nnn).toNat = nnn.toNat := by
  have := nnn.isLt
  simp [addrOperand]; omega

theorem State.shiftSource_eq (s : State) (x y : Nibble) :
    s.shiftSource x y = if s.config.compat = .legacy then s.reg y else s.reg x := by
  rw [State.shiftSource]; cases s.config.compat <;> rfl

/-- The register of `Bnnn`. -/
theorem State.offsetReg_eq (s : State) (nnn : Addr) :
    s.offsetReg nnn = if s.config.compat = .legacy then 0 else BitVec.ofNat 4 (nnn.toNat / 256) := by
  have h : nnn.extractLsb' 8 4 = BitVec.ofNat 4 (nnn.toNat / 256) := by
    apply BitVec.eq_of_toNat_eq; simp [Nat.shiftRight_eq_div_pow]
  rw [State.offsetReg]; cases s.config.compat <;> simp [h]

/-- The target of `Bnnn` does not wrap: it is at most 0x10FE. -/
theorem State.toNat_offsetTarget (s : State) (nnn : Addr) :
    (s.offsetTarget nnn).toNat = nnn.toNat + (s.reg (s.offsetReg nnn)).toNat := by
  have h1 := nnn.isLt
  have h2 := (s.reg (s.offsetReg nnn)).isLt
  rw [State.offsetTarget, BitVec.toNat_add, toNat_addrOperand]; simp; omega

theorem toNat_glyphAddress (v : Byte) : (glyphAddress v).toNat = 0x50 + v.toNat % 16 * 5 := by
  revert v; decide

theorem State.toNat_indexSum (s : State) (x : Nibble) :
    (s.indexSum x).toNat = (s.ir.toNat + (s.reg x).toNat) % 65536 := by
  simp [State.indexSum]

theorem keyIndex_of_le {v : Byte} (h : v.toNat ≤ 0xF) : keyIndex v = .ok (BitVec.ofNat 4 v.toNat) := by
  rw [keyIndex, if_neg (by omega)]; congr 1

theorem keyIndex_of_lt {v : Byte} (h : 0xF < v.toNat) : keyIndex v = .error (.keyIndexOutOfRange v) := by
  rw [keyIndex, if_pos h]

theorem toNat_keyValue (k : Nibble) : (keyValue k).toNat = k.toNat := by
  have := k.isLt
  simp [keyValue]; omega

@[simp] theorem length_bcdDigits (v : Byte) : (bcdDigits v).length = 3 := rfl

theorem flagOf_eq_one (c : Bool) : flagOf c = 1 ↔ c = true := by cases c <;> decide

theorem carryFlag_eq (a b : Byte) : carryFlag a b = if 255 < a.toNat + b.toNat then 1 else 0 := by
  simp [carryFlag, flagOf]

theorem noBorrowFlag_eq (a b : Byte) : noBorrowFlag a b = if b.toNat ≤ a.toNat then 1 else 0 := by
  simp [noBorrowFlag, flagOf]

theorem toNat_shiftRightFlag (src : Byte) : (shiftRightFlag src).toNat = src.toNat % 2 := by revert src; decide

theorem toNat_shiftLeftFlag (src : Byte) : (shiftLeftFlag src).toNat = src.toNat / 128 := by revert src; decide

/-- A byte difference as an integer, modulo 256. -/
theorem toNat_sub_byte (a b : Byte) : ((a - b).toNat : Int) = (a.toNat - b.toNat : Int) % 256 := by
  have := a.isLt
  have := b.isLt
  rw [BitVec.toNat_sub]; omega

theorem toNat_countdown (t : Byte) : (countdown t).toNat = t.toNat - 1 := by revert t; decide

end Sys2Proof.Machine
end

