-- ==== Sys2Proof/Laws/PerInstr.lean ====
section
/-! SUPPORT. One lemma per instruction: its word carries the fixed bits of its own row of the opcode table (R60(a)). -/

namespace Sys2Proof

/-- The fixed bits of format `NNN`. -/
theorem formatNNN_op (op : Nibble) (nnn : Addr) : formatNNN op nnn &&& 0xF000 = op ++ (0 : Addr) := by
  apply BitVec.eq_of_getLsbD_eq; intro i hi
  simp only [formatNNN, BitVec.getLsbD_and, BitVec.getLsbD_append]
  interval_cases i <;> simp

/-- The fixed bits of format `XNN`. -/
theorem formatXNN_op (op x : Nibble) (nn : Byte) : formatXNN op x nn &&& 0xF000 = op ++ (0 : Addr) := by
  apply BitVec.eq_of_getLsbD_eq; intro i hi
  simp only [formatXNN, BitVec.getLsbD_and, BitVec.getLsbD_append]
  interval_cases i <;> simp

/-- The fixed bits of format `XSS`. -/
theorem formatXNN_sub (op x : Nibble) (nn : Byte) : formatXNN op x nn &&& 0xF0FF = op ++ (0 : Nibble) ++ nn := by
  apply BitVec.eq_of_getLsbD_eq; intro i hi
  simp only [formatXNN, BitVec.getLsbD_and, BitVec.getLsbD_append]
  interval_cases i <;> simp

/-- The fixed bits of format `XYN`. -/
theorem formatXYN_op (op x y n : Nibble) : formatXYN op x y n &&& 0xF000 = op ++ (0 : Addr) := by
  apply BitVec.eq_of_getLsbD_eq; intro i hi
  simp only [formatXYN, BitVec.getLsbD_and, BitVec.getLsbD_append]
  interval_cases i <;> simp

/-- The fixed bits of format `XYS`. -/
theorem formatXYN_sub (op x y n : Nibble) : formatXYN op x y n &&& 0xF00F = op ++ (0 : Byte) ++ n := by
  apply BitVec.eq_of_getLsbD_eq; intro i hi
  simp only [formatXYN, BitVec.getLsbD_and, BitVec.getLsbD_append]
  interval_cases i <;> simp

/-- The word of the instruction is in the instruction's row: its bits under the row's mask are the row's value. -/
def Laws.EncodesInRow.Statement (i : Instr) : Prop := encode i &&& i.row.mask = i.row.value

theorem Laws.EncodesInRow.cls : Laws.EncodesInRow.Statement .cls := rfl
theorem Laws.EncodesInRow.ret : Laws.EncodesInRow.Statement .ret := rfl
theorem Laws.EncodesInRow.jp (nnn : Addr) : Laws.EncodesInRow.Statement (.jp nnn) := formatNNN_op _ _
theorem Laws.EncodesInRow.call (nnn : Addr) : Laws.EncodesInRow.Statement (.call nnn) := formatNNN_op _ _
theorem Laws.EncodesInRow.seByte (x : Nibble) (nn : Byte) : Laws.EncodesInRow.Statement (.seByte x nn) := formatXNN_op _ _ _
theorem Laws.EncodesInRow.sneByte (x : Nibble) (nn : Byte) : Laws.EncodesInRow.Statement (.sneByte x nn) := formatXNN_op _ _ _
theorem Laws.EncodesInRow.seReg (x y : Nibble) : Laws.EncodesInRow.Statement (.seReg x y) := formatXYN_sub _ _ _ _
theorem Laws.EncodesInRow.ldByte (x : Nibble) (nn : Byte) : Laws.EncodesInRow.Statement (.ldByte x nn) := formatXNN_op _ _ _
theorem Laws.EncodesInRow.addByte (x : Nibble) (nn : Byte) : Laws.EncodesInRow.Statement (.addByte x nn) := formatXNN_op _ _ _
theorem Laws.EncodesInRow.ldReg (x y : Nibble) : Laws.EncodesInRow.Statement (.ldReg x y) := formatXYN_sub _ _ _ _
theorem Laws.EncodesInRow.orReg (x y : Nibble) : Laws.EncodesInRow.Statement (.orReg x y) := formatXYN_sub _ _ _ _
theorem Laws.EncodesInRow.andReg (x y : Nibble) : Laws.EncodesInRow.Statement (.andReg x y) := formatXYN_sub _ _ _ _
theorem Laws.EncodesInRow.xorReg (x y : Nibble) : Laws.EncodesInRow.Statement (.xorReg x y) := formatXYN_sub _ _ _ _
theorem Laws.EncodesInRow.addReg (x y : Nibble) : Laws.EncodesInRow.Statement (.addReg x y) := formatXYN_sub _ _ _ _
theorem Laws.EncodesInRow.subReg (x y : Nibble) : Laws.EncodesInRow.Statement (.subReg x y) := formatXYN_sub _ _ _ _
theorem Laws.EncodesInRow.shr (x y : Nibble) : Laws.EncodesInRow.Statement (.shr x y) := formatXYN_sub _ _ _ _
theorem Laws.EncodesInRow.subnReg (x y : Nibble) : Laws.EncodesInRow.Statement (.subnReg x y) := formatXYN_sub _ _ _ _
theorem Laws.EncodesInRow.shl (x y : Nibble) : Laws.EncodesInRow.Statement (.shl x y) := formatXYN_sub _ _ _ _
theorem Laws.EncodesInRow.sneReg (x y : Nibble) : Laws.EncodesInRow.Statement (.sneReg x y) := formatXYN_sub _ _ _ _
theorem Laws.EncodesInRow.ldI (nnn : Addr) : Laws.EncodesInRow.Statement (.ldI nnn) := formatNNN_op _ _
theorem Laws.EncodesInRow.jpOffset (nnn : Addr) : Laws.EncodesInRow.Statement (.jpOffset nnn) := formatNNN_op _ _
theorem Laws.EncodesInRow.rnd (x : Nibble) (nn : Byte) : Laws.EncodesInRow.Statement (.rnd x nn) := formatXNN_op _ _ _
theorem Laws.EncodesInRow.drw (x y n : Nibble) : Laws.EncodesInRow.Statement (.drw x y n) := formatXYN_op _ _ _ _
theorem Laws.EncodesInRow.skp (x : Nibble) : Laws.EncodesInRow.Statement (.skp x) := formatXNN_sub _ _ _
theorem Laws.EncodesInRow.sknp (x : Nibble) : Laws.EncodesInRow.Statement (.sknp x) := formatXNN_sub _ _ _
theorem Laws.EncodesInRow.ldRegDelay (x : Nibble) : Laws.EncodesInRow.Statement (.ldRegDelay x) := formatXNN_sub _ _ _
theorem Laws.EncodesInRow.ldKey (x : Nibble) : Laws.EncodesInRow.Statement (.ldKey x) := formatXNN_sub _ _ _
theorem Laws.EncodesInRow.ldDelay (x : Nibble) : Laws.EncodesInRow.Statement (.ldDelay x) := formatXNN_sub _ _ _
theorem Laws.EncodesInRow.ldSound (x : Nibble) : Laws.EncodesInRow.Statement (.ldSound x) := formatXNN_sub _ _ _
theorem Laws.EncodesInRow.addI (x : Nibble) : Laws.EncodesInRow.Statement (.addI x) := formatXNN_sub _ _ _
theorem Laws.EncodesInRow.ldFont (x : Nibble) : Laws.EncodesInRow.Statement (.ldFont x) := formatXNN_sub _ _ _
theorem Laws.EncodesInRow.ldBcd (x : Nibble) : Laws.EncodesInRow.Statement (.ldBcd x) := formatXNN_sub _ _ _
theorem Laws.EncodesInRow.storeRegs (x : Nibble) : Laws.EncodesInRow.Statement (.storeRegs x) := formatXNN_sub _ _ _
theorem Laws.EncodesInRow.loadRegs (x : Nibble) : Laws.EncodesInRow.Statement (.loadRegs x) := formatXNN_sub _ _ _

end Sys2Proof
end

