-- ==== Sys2Proof/Laws/Sprite.lean ====
section
/-! SUPPORT. What `Dxyn` does, once: the canvas it draws, which pixels it toggles, when it notes a collision. -/

namespace Sys2Proof.Machine

/-- The canvas after the rows of a `Dxyn` whose rows are all in memory. -/
def State.drawn (s : State) (x y n : Nibble) : Canvas :=
  drawRows s.width (s.spriteColumn x) (s.spriteRow y) (s.bytesFrom s.ir.toNat (s.spriteRows y n))
    { fb := s.fb, hit := false }

/-- On the screen, the sprite of the loop is the sprite of the claims. -/
theorem State.spriteAt_eq (s : State) (x y n : Nibble) (cx cy : Nat) (hx : cx < s.width) (hy : cy < s.height) :
    spriteAt (s.spriteColumn x) (s.spriteRow y) cx cy (s.bytesFrom s.ir.toNat (s.spriteRows y n)) =
      s.spriteBit x y n cx cy := by
  have key : ∀ cx0 cy0 W H : Nat, cx < W → cy < H →
      spriteAt cx0 cy0 cx cy (s.bytesFrom s.ir.toNat (min n.toNat (H - cy0))) =
        (cx0 ≤ cx && cx < cx0 + 8 && cx < W && cy0 ≤ cy && cy < cy0 + n.toNat && cy < H
          && (s.byteAt (s.ir.toNat + (cy - cy0))).getLsbD (7 - (cx - cx0))) := by
    intro cx0 cy0 W H hW hH
    simp only [spriteAt, State.length_bytesFrom, bitAt, getD_rowBits]
    rw [List.getD_eq_getElem?_getD, State.getElem?_bytesFrom]
    by_cases h1 : cy0 ≤ cy
    · by_cases h2 : cy < cy0 + n.toNat
      · have e1 : cy < cy0 + min n.toNat (H - cy0) := by omega
        have e3 : cy - cy0 < min n.toNat (H - cy0) := by omega
        by_cases h3 : cx0 ≤ cx
        · have e2 : (cx - cx0 < 8) = (cx < cx0 + 8) := by apply propext; omega
          simp only [h1, h2, h3, hW, hH, e1, e2, e3, if_true, decide_true, Bool.true_and, Bool.and_true,
            Option.getD_some]
        · simp [h3]
      · have e1 : ¬ cy < cy0 + min n.toNat (H - cy0) := by omega
        simp only [h2, e1, decide_false, Bool.false_and, Bool.and_false]
    · simp [h1]
  exact key _ _ _ _ hx hy

/-- The pixels of the screen after the rows, and when a collision is noted. -/
theorem State.drawn_spec (s : State) (x y n : Nibble) :
    (∀ cx cy, cx < s.width → cy < s.height → Framebuffer.pixel (s.drawn x y n).fb cx cy =
      if s.spriteBit x y n cx cy then 1 - s.pixel cx cy else s.pixel cx cy) ∧
    ((s.drawn x y n).hit = true ↔
      ∃ cx cy, cx < s.width ∧ cy < s.height ∧ s.spriteBit x y n cx cy = true ∧ s.pixel cx cy = 1) := by
  obtain ⟨h1, h2⟩ := drawRows_spec (fbWidth_le s.config.fbMode) (s.spriteColumn x) (s.spriteRow y)
    (s.bytesFrom s.ir.toNat (s.spriteRows y n)) { fb := s.fb, hit := false }
  refine ⟨fun cx cy hx hy => ?_, h2.trans ?_⟩
  · refine (h1 cx cy hx).trans ?_
    rw [s.spriteAt_eq x y n cx cy hx hy]; rfl
  · constructor
    · rintro (h | ⟨dx, dy, hx, hb, hp⟩)
      · cases h
      · have hpos : 0 < s.height := fbHeight_pos _
        have hrow : s.spriteRow y < s.height := Nat.mod_lt _ hpos
        have hy : dy < s.height := by simp [spriteAt, State.spriteRows] at hb; omega
        exact ⟨dx, dy, hx, hy, by rw [← s.spriteAt_eq x y n dx dy hx hy]; exact hb, hp⟩
    · rintro ⟨dx, dy, hx, hy, hb, hp⟩
      exact .inr ⟨dx, dy, hx, by rw [s.spriteAt_eq x y n dx dy hx hy]; exact hb, hp⟩

/-- `Dxyn`: it completes with the canvas and the collision flag, or a row on the screen is above 0xFFF. -/
theorem execDrw_eq (s : State) (x y n : Nibble) :
    execDrw x y n s =
      if s.spriteRows y n = 0 ∨ s.ir.toNat + s.spriteRows y n ≤ 0x1000 then
        ((s.setFb (s.drawn x y n).fb).setFlag (flagOf (s.drawn x y n).hit)).complete
      else .fault (.memoryOutOfRange (max s.ir.toNat 0x1000) .read) := by
  rw [execDrw, State.memRead_eq]
  by_cases h : s.spriteRows y n = 0 ∨ s.ir.toNat + s.spriteRows y n ≤ 0x1000
  · rw [if_pos h, if_pos h]; rfl
  · rw [if_neg h, if_neg h]

end Sys2Proof.Machine
end

