-- ==== Sys2Proof/Laws/Step.lean ====
section
/-! SUPPORT. What the fetch and a Step can do, once. -/

namespace Sys2Proof.Machine

/-- The fetch advance, where the fetch is in range (R64). -/
theorem State.advance_eq (s : State) (h : s.pc.toNat ≤ 0xFFE) : s.advance = s.setPc (s.pc + 2) := by
  rw [State.advance, if_pos (show s.pc.toNat + 2 ≤ 4096 by omega)]

/-- A Step in one of five ways, in the order of the checks (R69): refused, out of range, unrecognized, or an instruction. -/
theorem step_cases (s : State) :
    (∃ f, s.fault = some f ∧ step s = .refused .faulted) ∨
    (s.fault = none ∧ 0xFFE < s.pc.toNat ∧ step s = .fault (.fetchOutOfRange s.pc)) ∨
    (s.fault = none ∧ s.pc.toNat ≤ 0xFFE ∧ (∃ e, decodeWord (s.wordAt s.pc.toNat) = .error e) ∧
      step s = .next (s.afterErr .unrecognizedEncoding)) ∨
    (s.fault = none ∧ s.pc.toNat ≤ 0xFFE ∧ ∃ i, decodeWord (s.wordAt s.pc.toNat) = .ok i ∧
      step s = exec i (s.setPc (s.pc + 2))) := by
  by_cases hf : s.fault = none
  · by_cases hp : 0xFFE < s.pc.toNat
    · exact .inr (.inl ⟨hf, hp, by rw [step, State.fetch, hf]; simp only [if_pos hp]⟩)
    · have hp' : s.pc.toNat ≤ 0xFFE := by omega
      cases hd : decodeWord (s.wordAt s.pc.toNat) with
      | error e =>
        refine .inr (.inr (.inl ⟨hf, hp', ⟨e, rfl⟩, ?_⟩))
        rw [step, State.fetch, hf]; simp only [if_neg hp, hd, s.advance_eq hp']; rfl
      | ok i =>
        refine .inr (.inr (.inr ⟨hf, hp', i, rfl, ?_⟩))
        rw [step, State.fetch, hf]; simp only [if_neg hp, hd, s.advance_eq hp']
  · obtain ⟨f, hf⟩ := Option.ne_none_iff_exists'.mp hf
    exact .inl ⟨f, hf, by rw [step, State.fetch, hf]⟩

end Sys2Proof.Machine
end

