-- ==== Sys2Proof/Laws/Transactions.lean ====
section
/-! SUPPORT. What the loader's transactions can do, once: `ClearState` on each byte, and the two ways `LoadFont` can go. -/

namespace Sys2Proof.Machine

@[simp] theorem State.fontTable_some (s : State) (table : List Byte) : s.fontTable (some table) = table := rfl

/-- Without a caller's table, `LoadFont` copies the 80 bytes of `DEFAULT_FONT` (R6, R143). -/
@[simp] theorem State.length_fontTable_none (s : State) : (s.fontTable none).length = 80 := by
  simp [State.fontTable]

/-- `ClearState` keeps the bytes below `PROGRAM_BASE` and zeroes the others (R140). -/
@[simp] theorem State.byteAt_clearState (s : State) (a : Nat) :
    s.clearState.byteAt a = if a < 0x200 then s.byteAt a else 0 := by
  refine (Cells.read_filter (fun k => decide (k < 0x200)) s.mem a).trans ?_
  simp only [decide_eq_true_eq]
  rfl

/-- `LoadFont` in one of two ways: the refusal, which only a caller's table can meet, or the copy. -/
theorem State.loadFont_cases (s : State) (table : Option (List Byte)) :
    (432 < (s.fontTable table).length ∧ table ≠ none ∧ s.loadFont table = .error .loadFontTooLarge) ∨
    ((s.fontTable table).length ≤ 432 ∧
      s.loadFont table = .ok ((s.storeBytes 0x50 (s.fontTable table)).setResult .ok)) := by
  by_cases h : 432 < (s.fontTable table).length
  · exact .inl ⟨h, by rintro rfl; simp at h, if_pos h⟩
  · exact .inr ⟨by omega, if_neg h⟩

end Sys2Proof.Machine
end

