-- ==== Sys2Proof/Tests/Slice0.lean ====
section
/-! SUPPORT. Tests: expected results are the vectors of spec/95_test_vectors.md (their ids are in the comments) and the examples
of the rules; and a witness for the hypotheses of every obligation. -/

namespace Sys2Proof.Tests

open Sys2Proof.Machine

/-- The state of the vectors' defaults with a word at `pc` and some registers loaded. -/
def at_ (pc w : Word) (regs : List (Nibble × Byte)) : State :=
  (regs.foldl (fun (s : State) r => s.setReg r.1 r.2) (State.reset.setPc pc)).storeBytes pc.toNat (wordBytes w)

/-- The state with the Legacy readings. -/
def legacy (s : State) : State := { s with config := { s.config with compat := .legacy } }

/-- The state with the sum's flag preserved. -/
def preserving (s : State) : State := { s with config := { s.config with fx1eVfPolicy := .preserveOnNoOverflow } }

/-- The state with the large framebuffer. -/
def extended (s : State) : State := { s with config := { s.config with fbMode := .extended128x64 } }

/-- A Step that returns a next state the check holds of. -/
def leaves (s : State) (p : State → Bool) : Bool := match step s with | .next t => p t | _ => false

/-- A Step that returns `Ok` with `pc` as given and the check held. -/
def ok (s : State) (pc : Word) (p : State → Bool) : Bool := leaves s fun t => t.result = .ok && t.pc = pc && p t

/-- A Step that returns `Err(kind)` and changes only `pc`. -/
def err (s : State) (k : ErrKind) : Bool := leaves s fun t => t = s.afterErr k

/-- A Step that raises the fault. -/
def faults (s : State) (f : Fault) : Bool := match step s with | .fault g => g = f | _ => false

/-- A transaction that exists, and leaves a state the check holds of. -/
def does (tr : Transaction) (s : State) (p : State → Bool) : Bool := match issue tr s with | .ok t => p t | .error _ => false

/-! ## Well-formedness: the smoke test -/

theorem test_illFormed_family0 :
    wellFormedWord 0x0123 = false ∧ decodeWord 0x0123 = .error (.unrecognizedEncoding 0x0123) := ⟨by decide, by decide⟩
theorem test_illFormed_family0_super :
    wellFormedWord 0x00FE = false ∧ decodeWord 0x00FE = .error (.unrecognizedEncoding 0x00FE) := ⟨by decide, by decide⟩
theorem test_illFormed_family5 :
    wellFormedWord 0x5121 = false ∧ decodeWord 0x5121 = .error (.unrecognizedEncoding 0x5121) := ⟨by decide, by decide⟩
theorem test_illFormed_family8 :
    wellFormedWord 0x8018 = false ∧ decodeWord 0x8018 = .error (.unrecognizedEncoding 0x8018) := ⟨by decide, by decide⟩
theorem test_illFormed_family8_last :
    wellFormedWord 0x801F = false ∧ decodeWord 0x801F = .error (.unrecognizedEncoding 0x801F) := ⟨by decide, by decide⟩
theorem test_illFormed_family9 :
    wellFormedWord 0x912F = false ∧ decodeWord 0x912F = .error (.unrecognizedEncoding 0x912F) := ⟨by decide, by decide⟩
theorem test_illFormed_familyE :
    wellFormedWord 0xE59F = false ∧ decodeWord 0xE59F = .error (.unrecognizedEncoding 0xE59F) := ⟨by decide, by decide⟩
theorem test_illFormed_familyF :
    wellFormedWord 0xF0FF = false ∧ decodeWord 0xF0FF = .error (.unrecognizedEncoding 0xF0FF) := ⟨by decide, by decide⟩
theorem test_illFormed_truncated : decode [0x6A] = .error .truncated := by decide
theorem test_wellFormed : wellFormedWord 0xD010 = true ∧ (Instr.drw 0x0 0x1 0x0).wellFormed = true := ⟨by decide, by decide⟩

/-! ## Decoding: a word of every instruction, written out from its rule's encoding -/

theorem test_decode_cls : decodeWord 0b0000_0000_1110_0000 = .ok .cls := by decide
theorem test_decode_ret : decodeWord 0b0000_0000_1110_1110 = .ok .ret := by decide
theorem test_decode_jp : decodeWord 0b0001_0010_0011_0100 = .ok (.jp 0x234) := by decide
theorem test_decode_call : decodeWord 0b0010_0000_0101_0000 = .ok (.call 0x050) := by decide
theorem test_decode_seByte : decodeWord 0b0011_1010_0010_1111 = .ok (.seByte 0xA 0x2F) := by decide
theorem test_decode_sneByte : decodeWord 0b0100_0000_0000_0010 = .ok (.sneByte 0x0 0x02) := by decide
theorem test_decode_seReg : decodeWord 0b0101_0001_0010_0000 = .ok (.seReg 0x1 0x2) := by decide
theorem test_decode_ldByte : decodeWord 0b0110_1010_0010_1111 = .ok (.ldByte 0xA 0x2F) := by decide
theorem test_decode_addByte : decodeWord 0b0111_0000_0000_0011 = .ok (.addByte 0x0 0x03) := by decide
theorem test_decode_ldReg : decodeWord 0b1000_0000_0001_0000 = .ok (.ldReg 0x0 0x1) := by decide
theorem test_decode_orReg : decodeWord 0b1000_0000_0001_0001 = .ok (.orReg 0x0 0x1) := by decide
theorem test_decode_andReg : decodeWord 0b1000_0000_0001_0010 = .ok (.andReg 0x0 0x1) := by decide
theorem test_decode_xorReg : decodeWord 0b1000_0000_0001_0011 = .ok (.xorReg 0x0 0x1) := by decide
theorem test_decode_addReg : decodeWord 0b1000_1111_0001_0100 = .ok (.addReg 0xF 0x1) := by decide
theorem test_decode_subReg : decodeWord 0b1000_0000_0001_0101 = .ok (.subReg 0x0 0x1) := by decide
theorem test_decode_shr : decodeWord 0b1000_0000_0001_0110 = .ok (.shr 0x0 0x1) := by decide
theorem test_decode_subnReg : decodeWord 0b1000_0000_0001_0111 = .ok (.subnReg 0x0 0x1) := by decide
theorem test_decode_shl : decodeWord 0b1000_0000_0001_1110 = .ok (.shl 0x0 0x1) := by decide
theorem test_decode_sneReg : decodeWord 0b1001_0001_0010_0000 = .ok (.sneReg 0x1 0x2) := by decide
theorem test_decode_ldI : decodeWord 0b1010_0011_0000_0000 = .ok (.ldI 0x300) := by decide
theorem test_decode_jpOffset : decodeWord 0b1011_0010_1111_0000 = .ok (.jpOffset 0x2F0) := by decide
theorem test_decode_rnd : decodeWord 0b1100_0011_0000_1111 = .ok (.rnd 0x3 0x0F) := by decide
theorem test_decode_drw : decodeWord 0b1101_0000_0001_0101 = .ok (.drw 0x0 0x1 0x5) := by decide
theorem test_decode_skp : decodeWord 0b1110_0101_1001_1110 = .ok (.skp 0x5) := by decide
theorem test_decode_sknp : decodeWord 0b1110_0101_1010_0001 = .ok (.sknp 0x5) := by decide
theorem test_decode_ldRegDelay : decodeWord 0b1111_0001_0000_0111 = .ok (.ldRegDelay 0x1) := by decide
theorem test_decode_ldKey : decodeWord 0b1111_0011_0000_1010 = .ok (.ldKey 0x3) := by decide
theorem test_decode_ldDelay : decodeWord 0b1111_0000_0001_0101 = .ok (.ldDelay 0x0) := by decide
theorem test_decode_ldSound : decodeWord 0b1111_0000_0001_1000 = .ok (.ldSound 0x0) := by decide
theorem test_decode_addI : decodeWord 0b1111_0010_0001_1110 = .ok (.addI 0x2) := by decide
theorem test_decode_ldFont : decodeWord 0b1111_0010_0010_1001 = .ok (.ldFont 0x2) := by decide
theorem test_decode_ldBcd : decodeWord 0b1111_1010_0011_0011 = .ok (.ldBcd 0xA) := by decide
theorem test_decode_storeRegs : decodeWord 0b1111_0010_0101_0101 = .ok (.storeRegs 0x2) := by decide
theorem test_decode_loadRegs : decodeWord 0b1111_0010_0110_0101 = .ok (.loadRegs 0x2) := by decide
theorem test_decode_bytes : decode [0x12, 0x34, 0xFF] = .ok (.jp 0x234, [0xFF]) := by decide
theorem test_tableWord :
    decodeTableWord 16 0xD015 = some (.drw 0x0 0x1 0x5) ∧ decodeTableWord 16 0x5121 = none := ⟨by decide, by decide⟩
theorem test_fetchWord : ok (State.reset.withFetchWord 16 0x6A2F) 0x202 (fun t => t.reg 0xA = 0x2F) = true := by decide

/-! ## Control flow -/

/-- V0-1 -/
theorem test_ret_empty : err (at_ 0x200 0x00EE []) .stackEmpty = true := by decide
/-- V0-2 -/
theorem test_ret :
    ok { at_ 0x300 0x00EE [] with sp := 2, stack := [(0, 0x206), (1, 0x234)] } 0x234 (fun t => t.sp.val = 1) = true := by decide
/-- V1-1 -/
theorem test_jp : ok (at_ 0x200 0x1234 []) 0x234 (fun _ => true) = true := by decide
/-- V1-2 -/
theorem test_jp_self : leaves (at_ 0x200 0x1200 []) (fun t => t = at_ 0x200 0x1200 []) = true := by decide
/-- V2-2 -/
theorem test_call_full : err { at_ 0x200 0x2050 [] with sp := 1000 } .capacityExceeded = true := by decide
/-- V2-3 -/
theorem test_call_last :
    ok { at_ 0x200 0x2400 [] with sp := 999 } 0x400 (fun t => t.sp.val = 1000 && t.stackAt 999 = 0x202) = true := by decide
/-- V3-1 -/
theorem test_seByte : ok (at_ 0x202 0x3A2F [(0xA, 0x2F)]) 0x206 (fun _ => true) = true := by decide
/-- V3-2 -/
theorem test_seByte_not : ok (at_ 0x202 0x3A2F [(0xA, 0x2E)]) 0x204 (fun _ => true) = true := by decide
/-- V4-1 and the example of R75 -/
theorem test_sneByte : ok (at_ 0x200 0x4002 [(0x0, 0x01)]) 0x204 (fun _ => true) = true := by decide
/-- R75's pseudocode, where vector V4-2 differs (entry 19) -/
theorem test_sneByte_not : ok (at_ 0x200 0x4002 [(0x0, 0x02)]) 0x202 (fun _ => true) = true := by decide
/-- V5-1 -/
theorem test_seReg : ok (at_ 0x200 0x5120 [(0x1, 0x07), (0x2, 0x07)]) 0x204 (fun _ => true) = true := by decide
/-- V5-2 -/
theorem test_seReg_not : ok (at_ 0x200 0x5120 [(0x1, 0x07), (0x2, 0x08)]) 0x202 (fun _ => true) = true := by decide
/-- V9-1 -/
theorem test_sneReg : ok (at_ 0x200 0x9120 [(0x1, 0x07), (0x2, 0x08)]) 0x204 (fun _ => true) = true := by decide
/-- V9-4 -/
theorem test_sneReg_same : ok (at_ 0x200 0x9330 [(0x3, 0x99)]) 0x202 (fun _ => true) = true := by decide
/-- VB-4 -/
theorem test_jpOffset_legacy : ok (legacy (at_ 0x200 0xBFFF [(0x0, 0xFF)])) 0x10FE (fun _ => true) = true := by decide
/-- VB-2 -/
theorem test_jpOffset_modern : ok (at_ 0x200 0xB300 [(0x3, 0x04), (0x0, 0x99)]) 0x304 (fun _ => true) = true := by decide

/-! ## Register loads and arithmetic -/

/-- V6-1 -/
theorem test_ldByte : ok (at_ 0x200 0x6A2F []) 0x202 (fun t => t.reg 0xA = 0x2F) = true := by decide
/-- V6-2 -/
theorem test_ldByte_VF : ok (at_ 0x200 0x6FAB [(0xF, 0x01)]) 0x202 (fun t => t.reg 0xF = 0xAB) = true := by decide
/-- V7-1 -/
theorem test_addByte :
    ok (at_ 0x200 0x7003 [(0x0, 0xFE), (0xF, 0x05)]) 0x202 (fun t => t.reg 0x0 = 0x01 && t.reg 0xF = 0x05) = true := by decide
/-- V7-3 -/
theorem test_addByte_VF : ok (at_ 0x200 0x7F01 [(0xF, 0xFF)]) 0x202 (fun t => t.reg 0xF = 0x00) = true := by decide
/-- V8-15 -/
theorem test_ldReg :
    ok (at_ 0x200 0x8010 [(0x1, 0x33)]) 0x202 (fun t => t.reg 0x0 = 0x33 && t.reg 0x1 = 0x33) = true := by decide
/-- V8-11 -/
theorem test_orReg :
    ok (at_ 0x200 0x8011 [(0x0, 0xF0), (0x1, 0x0F), (0xF, 0x55)]) 0x202 (fun t => t.reg 0x0 = 0xFF && t.reg 0xF = 0x55) = true :=
  by decide
/-- V8-12 -/
theorem test_andReg :
    ok (at_ 0x200 0x8012 [(0x0, 0xF0), (0x1, 0x3C), (0xF, 0x55)]) 0x202 (fun t => t.reg 0x0 = 0x30 && t.reg 0xF = 0x55) = true :=
  by decide
/-- V8-13 -/
theorem test_xorReg :
    ok (at_ 0x200 0x8013 [(0x0, 0xFF), (0x1, 0x0F), (0xF, 0x55)]) 0x202 (fun t => t.reg 0x0 = 0xF0 && t.reg 0xF = 0x55) = true :=
  by decide
/-- V8-2 -/
theorem test_addReg :
    ok (at_ 0x200 0x8014 [(0x0, 0x80), (0x1, 0x7F), (0xF, 0x01)]) 0x202 (fun t => t.reg 0x0 = 0xFF && t.reg 0xF = 0x00) = true :=
  by decide
/-- V8-3 -/
theorem test_addReg_VF : ok (at_ 0x200 0x8F14 [(0x1, 0xF0), (0xF, 0x10)]) 0x202 (fun t => t.reg 0xF = 0x01) = true := by decide
/-- V8-4 -/
theorem test_subReg_equal :
    ok (at_ 0x200 0x8015 [(0x0, 0x42), (0x1, 0x42)]) 0x202 (fun t => t.reg 0x0 = 0x00 && t.reg 0xF = 0x01) = true := by decide
/-- V8-7 -/
theorem test_subReg_borrow :
    ok (at_ 0x200 0x8015 [(0x0, 0x05), (0x1, 0x07)]) 0x202 (fun t => t.reg 0x0 = 0xFE && t.reg 0xF = 0x00) = true := by decide
/-- V8-16 -/
theorem test_shr :
    ok (at_ 0x200 0x8016 [(0x0, 0x05), (0x1, 0xFF)]) 0x202 (fun t => t.reg 0x0 = 0x02 && t.reg 0xF = 0x01) = true := by decide
/-- V8-17 -/
theorem test_shr_legacy :
    ok (legacy (at_ 0x200 0x8016 [(0x1, 0x05)])) 0x202 (fun t => t.reg 0x0 = 0x02 && t.reg 0x1 = 0x05 && t.reg 0xF = 0x01) = true :=
  by decide
/-- V8-8 -/
theorem test_subnReg :
    ok (at_ 0x200 0x8017 [(0x0, 0x05), (0x1, 0x07)]) 0x202 (fun t => t.reg 0x0 = 0x02 && t.reg 0xF = 0x01) = true := by decide
/-- V8-9 -/
theorem test_subnReg_borrow :
    ok (at_ 0x200 0x8017 [(0x0, 0x07), (0x1, 0x05)]) 0x202 (fun t => t.reg 0x0 = 0xFE && t.reg 0xF = 0x00) = true := by decide
/-- V8-18 -/
theorem test_shl :
    ok (at_ 0x200 0x801E [(0x0, 0x81), (0x1, 0x00)]) 0x202 (fun t => t.reg 0x0 = 0x02 && t.reg 0xF = 0x01) = true := by decide
/-- V8-19 -/
theorem test_shl_legacy :
    ok (legacy (at_ 0x200 0x801E [(0x1, 0x81)])) 0x202 (fun t => t.reg 0x0 = 0x02 && t.reg 0x1 = 0x81 && t.reg 0xF = 0x01) = true :=
  by decide
/-- VC-1, VC-3 -/
theorem test_rnd :
    (State.reset.maskedRandom 0x3 0x0F 0xA7).reg 0x3 = 0x07 ∧ (State.reset.maskedRandom 0x3 0xFF 0xA7).reg 0x3 = 0xA7 :=
  ⟨by decide, by decide⟩

/-! ## Index register and memory transfers -/

/-- VA-2 -/
theorem test_ldI : ok { at_ 0x200 0xAFFF [] with ir := 0xFFFF } 0x202 (fun t => t.ir = 0x0FFF) = true := by decide
/-- VF-12 -/
theorem test_addI :
    ok { at_ 0x200 0xFF1E [(0xF, 0x05)] with ir := 0x0100 } 0x202 (fun t => t.ir = 0x0105 && t.reg 0xF = 0x00) = true := by decide
/-- VF-9 -/
theorem test_addI_preserve :
    ok (preserving { at_ 0x200 0xF11E [(0x1, 0x01), (0xF, 0x01)] with ir := 0x0FFE }) 0x202
      (fun t => t.ir = 0x0FFF && t.reg 0xF = 0x01) = true := by decide
/-- VF-14 -/
theorem test_ldFont : ok (at_ 0x200 0xF229 [(0x2, 0x1A)]) 0x202 (fun t => t.ir = 0x0082) = true := by decide
/-- VF-20 -/
theorem test_ldBcd :
    ok { at_ 0x200 0xFA33 [(0xA, 0x7B)] with ir := 0x0FFD } 0x202
      (fun t => t.bytesFrom 0xFFD 3 = [0x01, 0x02, 0x03] && t.ir = 0x0FFD) = true := by decide
/-- VF-19 -/
theorem test_ldBcd_fault :
    faults { at_ 0x200 0xFA33 [(0xA, 0x7B)] with ir := 0x0FFE } (.memoryOutOfRange 0x1000 .write) = true := by decide
/-- VF-21 -/
theorem test_storeRegs :
    ok { at_ 0x200 0xF255 [(0x0, 0x01), (0x1, 0x02), (0x2, 0x03), (0x3, 0x04)] with ir := 0x400 } 0x202
      (fun t => t.bytesFrom 0x3FF 5 = [0x00, 0x01, 0x02, 0x03, 0x00]) = true := by decide
/-- VF-24 -/
theorem test_storeRegs_fault :
    faults { at_ 0x200 0xFF55 [] with ir := 0x0FF1 } (.memoryOutOfRange 0x1000 .write) = true := by decide
/-- VF-25 -/
theorem test_loadRegs :
    ok (State.storeBytes { at_ 0x200 0xF265 [(0x3, 0x44)] with ir := 0x300 } 0x300 [0x01, 0x02, 0x03, 0x04]) 0x202
      (fun t => t.v.toList.take 4 = [0x01, 0x02, 0x03, 0x44] && t.ir = 0x300) = true := by decide
/-- VF-27 -/
theorem test_loadRegs_fault :
    faults { at_ 0x200 0xF065 [] with ir := 0x1000 } (.memoryOutOfRange 0x1000 .read) = true := by decide

/-! ## Framebuffer -/

/-- V0-3 -/
theorem test_cls :
    ok { at_ 0x200 0x00E0 [(0xF, 0x01)] with fb := [(0, 1), (31 * 128 + 63, 1)] } 0x202
      (fun t => t.fb = [] && t.reg 0xF = 0x01) = true := by decide
/-- The program P4, cut off at the corner of 64 x 32; VD-12, in 128 x 64 -/
theorem test_drw_clip :
    ok (State.storeBytes { at_ 0x200 0xD013 [(0x0, 0x3E), (0x1, 0x1E), (0xF, 0x01)] with ir := 0x20A } 0x20A [0xFF, 0x81, 0xFF])
      0x202 (fun t => t.fb = [(30 * 128 + 62, 1), (30 * 128 + 63, 1), (31 * 128 + 62, 1)] && t.reg 0xF = 0x00) = true ∧
    ok (State.storeBytes { extended (at_ 0x200 0xD011 [(0x0, 0x45), (0x1, 0x21)]) with ir := 0x300 } 0x300 [0x80]) 0x202
      (fun t => t.fb = [(33 * 128 + 69, 1)]) = true := ⟨by decide, by decide⟩
/-- VD-11 over a pixel that is on: the column is the old `VF`, and the collision is noted -/
theorem test_drw_again :
    ok (State.storeBytes { at_ 0x200 0xDF01 [(0xF, 0x02)] with ir := 0x300, fb := [(2, 1)] } 0x300 [0x80]) 0x202
      (fun t => t.fb = [] && t.reg 0xF = 0x01) = true := by decide

/-! ## Keys and timers: the host's answer is given -/

/-- What VE-1 to VE-4 add to the post-fetch `pc` -/
theorem test_skip : (State.reset.skipIf true).pc = 0x202 ∧ (State.reset.skipIf false).pc = 0x200 := ⟨by decide, by decide⟩
/-- VE-5 -/
theorem test_skp_fault : faults (at_ 0x300 0xE59E [(0x5, 0x10)]) (.keyIndexOutOfRange 0x10) = true := by decide
/-- VE-6 -/
theorem test_sknp_fault : faults (at_ 0x300 0xE5A1 [(0x5, 0xFF)]) (.keyIndexOutOfRange 0xFF) = true := by decide
/-- VF-1, from the post-fetch `pc` -/
theorem test_ldKey_none : (State.awaitKey { State.reset with pc := 0x212 } 0x3 none).pc = 0x210 := by decide
/-- VF-3 -/
theorem test_ldKey_some : (State.awaitKey { State.reset with pc := 0x212 } 0xF (some 0xF)).reg 0xF = 0x0F := by decide
/-- VF-4 -/
theorem test_ldRegDelay :
    ok { at_ 0x200 0xF107 [] with delayTimer := 0x3C } 0x202 (fun t => t.reg 0x1 = 0x3C) = true := by decide
/-- VF-5 -/
theorem test_ldDelay :
    ok (at_ 0x200 0xF015 [(0x0, 0x3C)]) 0x202 (fun t => t.delayTimer = 0x3C && t.soundTimer = 0x00) = true := by decide
/-- VF-6 -/
theorem test_ldSound :
    ok (at_ 0x200 0xF018 [(0x0, 0x05)]) 0x202 (fun t => t.soundTimer = 0x05 && t.delayTimer = 0x00) = true := by decide

/-! ## The fetch and the host's transactions -/

/-- V1-3, the Step after -/
theorem test_fetch_fault : faults { State.reset with pc := 0x0FFF } (.fetchOutOfRange 0x0FFF) = true := by decide
/-- VE-8: decode comes before the key check -/
theorem test_fetch_order : err (at_ 0x300 0xE5A2 [(0x5, 0x10)]) .unrecognizedEncoding = true := by decide
/-- T-3 and T-4 -/
theorem test_tick :
    does .tick { State.reset with delayTimer := 0xFF, soundTimer := 0x00 } (fun t => t.delayTimer = 0xFE && t.soundTimer = 0x00) = true :=
  by decide
/-- L-5 -/
theorem test_load :
    does (.loadProgram [0x12, 0x34]) { State.reset with pc := 0x300 } (fun t => t.mem = [(0x300, 0x12), (0x301, 0x34)] && t.pc = 0x300) = true :=
  by decide
/-- R143: a short table, from 0x50 on -/
theorem test_font :
    does (.loadFont (some [0xF0, 0x90])) State.reset (fun t => t.mem = [(0x50, 0xF0), (0x51, 0x90)]) = true := by decide
/-- The glyph A of R144 -/
theorem test_font_default :
    (State.reset.fontTable none).length = 80 ∧ ((State.reset.fontTable none).drop 50).take 5 = [0xF0, 0x90, 0xF0, 0x90, 0x90] :=
  ⟨by decide, by decide⟩
/-- L-12 -/
theorem test_init_step : err State.reset .unrecognizedEncoding = true := by decide
/-- H-2 -/
theorem test_dump :
    (State.dumpRange { State.reset with mem := [(0xFFE, 0x07), (0xFFF, 0x08)] } 0xFFD 0x2000) = [0x00, 0x07, 0x08] := by decide
/-- H-4 -/
theorem test_stuck : does .tick { State.reset with fault := some (.fetchOutOfRange 0xFFF) } (fun _ => true) = false := by decide

/-! ## Witnesses: a state and operands that meet the hypotheses of each obligation -/

theorem witness_EncodeOfDecode : decodeWord 0x8014 = .ok (.addReg 0x0 0x1) := by decide
theorem witness_EveryWordOneRowOrUnrecognized :
    State.reset.Fetches 0x0000 ∧ ∃ e, decodeWord 0x0000 = .error e := ⟨by decide, _, rfl⟩
theorem witness_StepRunsTheDecodedInstruction :
    (at_ 0xFFE 0x00E0 []).Fetches 0x00E0 ∧ decodeWord 0x00E0 = .ok .cls := ⟨by decide, by decide⟩
theorem witness_FetchRange :
    (State.reset.setPc 0xFFF).fault = none ∧ 0xFFE < (State.reset.setPc 0xFFF).pc.toNat := ⟨by decide, by decide⟩
theorem witness_FetchRange_last :
    (State.reset.setPc 0xFFE).fault = none ∧ (State.reset.setPc 0xFFE).pc.toNat ≤ 0xFFE := ⟨by decide, by decide⟩
theorem witness_PcChangesOnlyInTheNamedWays : ∃ t, step (at_ 0xFFE 0x3000 []) = .next t ∧ t.pc = 0x1002 := ⟨_, rfl, rfl⟩
theorem witness_ErrStepKeepsAllButPc_unrecognized :
    ∃ t, step State.reset = .next t ∧ t.result = .err .unrecognizedEncoding := ⟨_, rfl, rfl⟩
theorem witness_ErrStepKeepsAllButPc_full :
    ∃ t, step { at_ 0x200 0x2050 [] with sp := 1000 } = .next t ∧ t.result = .err .capacityExceeded := ⟨_, rfl, rfl⟩
theorem witness_ErrStepKeepsAllButPc_empty :
    ∃ t, step (at_ 0x200 0x00EE []) = .next t ∧ t.result = .err .stackEmpty := ⟨_, rfl, rfl⟩
theorem witness_FaultStepWritesOnlyTheMark_fetch : step (State.reset.setPc 0xFFF) = .fault (.fetchOutOfRange 0xFFF) := rfl
theorem witness_FaultStepWritesOnlyTheMark_read :
    step { at_ 0x200 0xD011 [] with ir := 0x1000 } = .fault (.memoryOutOfRange 0x1000 .read) := rfl
theorem witness_FaultStepWritesOnlyTheMark_write :
    step { at_ 0x200 0xF033 [] with ir := 0x0FFE } = .fault (.memoryOutOfRange 0x1000 .write) := rfl
theorem witness_FaultStepWritesOnlyTheMark_key :
    step (at_ 0x200 0xE09E [(0x0, 0x10)]) = .fault (.keyIndexOutOfRange 0x10) := rfl
theorem witness_FaultedStateIsStuck :
    (State.reset.markFault (.fetchOutOfRange 0xFFF)).fault = some (.fetchOutOfRange 0xFFF) ∧ ∀ cfg, Transaction.tick ≠ .init cfg :=
  ⟨by decide, fun _ h => by cases h⟩
theorem witness_HostStepsOnlyWhenNotHalted :
    State.reset.halted = true ∧ (State.reset.setHalted false).halted = false := ⟨by decide, by decide⟩
theorem witness_ReturnPops :
    State.reset.sp.val = 0 ∧ 0 < ({ State.reset with sp := 1000 } : State).sp.val := ⟨by decide, by decide⟩
theorem witness_CallPushes :
    ({ State.reset with sp := 1000 } : State).sp.val = 1000 ∧ ({ State.reset with sp := 999 } : State).sp.val < 1000 :=
  ⟨by decide, by decide⟩
theorem witness_ReturnUndoesCall : ({ State.reset with sp := 999 } : State).sp.val < 1000 := by decide
theorem witness_SkipsOnRegisters :
    (1 : Nibble) ≠ 0 ∧ (at_ 0x200 0x5121 []).Fetches (0x5#4 ++ 0x1#4 ++ 0x2#4 ++ 0x1#4) ∧
      (at_ 0x200 0x912F []).Fetches (0x9#4 ++ 0x1#4 ++ 0x2#4 ++ 0xF#4) := ⟨by decide, by decide, by decide⟩
theorem witness_JumpWithOffset :
    (legacy State.reset).config.compat = .legacy ∧ State.reset.config.compat = .modern := ⟨by decide, by decide⟩
theorem witness_AddWithCarry : (0x0 : Nibble) ≠ 0xF := by decide
theorem witness_SubtractWithNoBorrow : (0xE : Nibble) ≠ 0xF := by decide
theorem witness_ReverseSubtract : (0xE : Nibble) ≠ 0xF := by decide
theorem witness_ShiftsByOne :
    (0x05 : Byte) = (if State.reset.config.compat = .legacy then State.reset.reg 0x1
      else (at_ 0x200 0x8016 [(0x0, 0x05)]).reg 0x0) := by decide
theorem witness_ShiftsByOne_src :
    ∃ src, src = (if (legacy State.reset).config.compat = .legacy then (legacy State.reset).reg 0x1
      else (legacy State.reset).reg 0x0) := ⟨_, rfl⟩
theorem witness_StoreDecimalDigits :
    (State.reset.setIr 0xFFD).ir.toNat + 2 ≤ 0xFFF ∧ 0xFFF < (State.reset.setIr 0xFFE).ir.toNat + 2 := ⟨by decide, by decide⟩
theorem witness_StoreRegisters :
    (State.reset.setIr 0xFF0).ir.toNat + (0xF : Nibble).toNat ≤ 0xFFF ∧ (0xF : Nibble).toNat ≤ (0xF : Nibble).toNat ∧
      0xFFF < (State.reset.setIr 0xFF1).ir.toNat + (0xF : Nibble).toNat := ⟨by decide, by decide, by decide⟩
theorem witness_LoadRegisters :
    (State.reset.setIr 0xFFF).ir.toNat + (0x0 : Nibble).toNat ≤ 0xFFF ∧
      0xFFF < (State.reset.setIr 0x1000).ir.toNat + (0x0 : Nibble).toNat := ⟨by decide, by decide⟩

/-- The state of VF-30 after the fetch. -/
def overwriting : State := { at_ 0x300 0x0000 [(0x0, 0x12), (0x1, 0x34)] with ir := 0x300 }

theorem witness_StoreIsSeenByNextFetch :
    overwriting.fault = none ∧ overwriting.ir = overwriting.pc ∧ 1 ≤ (0x2 : Nibble).toNat ∧
      overwriting.ir.toNat + (0x2 : Nibble).toNat ≤ 0xFFF ∧
      decodeWord (bigEndian (overwriting.reg 0x0) (overwriting.reg 0x1)) = .ok (.jp 0x234) :=
  ⟨by decide, by decide, by decide, by decide, by decide⟩

/-- A sprite row 0x80 in the last byte of memory, and the pixel it names on. -/
def sprite : State := State.storeBytes { State.reset with ir := 0xFFF, fb := [(0, 1)] } 0xFFF [0x80]

theorem witness_DrawXorsTheSprite :
    1 = min (0x1 : Nibble).toNat (sprite.height - (sprite.reg 0x1).toNat % sprite.height) ∧ sprite.ir.toNat + 1 ≤ 0x1000 :=
  ⟨by decide, by decide⟩
theorem witness_DrawXorsTheSprite_none :
    0 = min (0x0 : Nibble).toNat (sprite.height - (sprite.reg 0x1).toNat % sprite.height) := by decide
theorem witness_DrawXorsTheSprite_fault :
    2 = min (0x2 : Nibble).toNat (sprite.height - (sprite.reg 0x1).toNat % sprite.height) ∧ 0x1000 < sprite.ir.toNat + 2 :=
  ⟨by decide, by decide⟩
theorem witness_DrawXorsTheSprite_hit :
    ∃ cx cy, cx < sprite.width ∧ cy < sprite.height ∧ sprite.spriteBit 0x0 0x1 0x1 cx cy = true ∧ sprite.pixel cx cy = 1 :=
  ⟨0, 0, by decide, by decide, by decide, by decide⟩
theorem witness_DrawXorsTheSprite_miss :
    ∀ cx cy, cx < (sprite.setFb []).width → cy < (sprite.setFb []).height →
      (sprite.setFb []).spriteBit 0x0 0x1 0x1 cx cy = true → (sprite.setFb []).pixel cx cy = 0 := fun _ _ _ _ _ => rfl
theorem witness_DoubleDrawRestores :
    (0x0 : Nibble) ≠ 0xF ∧ (0x1 : Nibble) ≠ 0xF ∧ ∃ t, exec (.drw 0x0 0x1 0x1) sprite = .next t := ⟨by decide, by decide, _, rfl⟩
theorem witness_KeySkips :
    (State.reset.setReg 0x5 0x0F |>.reg 0x5).toNat ≤ 0xF ∧ 0xF < (State.reset.setReg 0x5 0x10 |>.reg 0x5).toNat :=
  ⟨by decide, by decide⟩
theorem witness_KeyWait : (at_ 0x210 0xF30A []).Fetches (0xF#4 ++ 0x3#4 ++ 0x0A#8) := by decide
theorem witness_OnlyNamedInstructionsWrite_ir :
    ∃ t, step (at_ 0x200 0xA300 []) = .next t ∧ t.ir ≠ (at_ 0x200 0xA300 []).ir := ⟨_, rfl, by decide⟩
theorem witness_OnlyNamedInstructionsWrite_stack :
    ∃ t, step (at_ 0x200 0x2050 []) = .next t ∧ t.sp ≠ (at_ 0x200 0x2050 []).sp ∧ t.stack ≠ (at_ 0x200 0x2050 []).stack :=
  ⟨_, rfl, by decide, by decide⟩
theorem witness_OnlyNamedInstructionsWrite_fb :
    ∃ t, step { at_ 0x200 0x00E0 [] with fb := [(0, 1)] } = .next t ∧ t.fb ≠ [(0, 1)] := ⟨_, rfl, by decide⟩
theorem witness_OnlyNamedInstructionsWrite_delay :
    ∃ t, step (at_ 0x200 0xF015 [(0x0, 0x3C)]) = .next t ∧ t.delayTimer ≠ 0 := ⟨_, rfl, by decide⟩
theorem witness_OnlyNamedInstructionsWrite_sound :
    ∃ t, step (at_ 0x200 0xF018 [(0x0, 0x05)]) = .next t ∧ t.soundTimer ≠ 0 := ⟨_, rfl, by decide⟩
theorem witness_OnlyNamedInstructionsWrite_mem :
    ∃ t, step { at_ 0x200 0xF055 [(0x0, 0x99)] with ir := 0x400 } = .next t ∧ t.byteAt 0x400 ≠ 0 := ⟨_, rfl, by decide⟩
theorem witness_ParametersFixed : ∃ t, step (at_ 0x200 0x6A2F []) = .next t := ⟨_, rfl⟩
theorem witness_ParametersFixed_transaction :
    ∃ t, issue .step { State.reset with pc := 0xFFF } = .ok t ∧ ∀ cfg, Transaction.step ≠ .init cfg :=
  ⟨_, rfl, fun _ h => by cases h⟩
theorem witness_StepKeepsTheInvariant :
    (at_ 0x200 0x2050 []).Inv ∧ ∃ t, step (at_ 0x200 0x2050 []) = .next t := ⟨by decide, _, rfl⟩
theorem witness_TransactionsKeepTheInvariant :
    State.reset.Inv ∧ ∃ t, issue (.loadProgram [0x12, 0x34]) State.reset = .ok t := ⟨by decide, _, rfl⟩
theorem witness_StaleStackUnobservable :
    State.reset.SameButStale { State.reset with stack := [(0, 0x206)] } := ⟨rfl, fun _ h => absurd h (Nat.not_lt_zero _)⟩
theorem witness_EndedRunStays : (at_ 0x200 0x1200 []).ended = true := by decide
theorem witness_ClearStateBaseline : (at_ 0x200 0x1200 [(0x0, 0x01)]).fault = none := by decide
theorem witness_ClearStateIdempotent : ∃ t, issue .clearState (at_ 0x200 0x1200 []) = .ok t := ⟨_, rfl⟩
theorem witness_ClearStateIdempotent_bytes :
    ∃ t, issue .clearState { State.reset with mem := [(0x1FF, 0xAA), (0x200, 0xBB)] } = .ok t ∧ t.mem = [(0x1FF, 0xAA)] :=
  ⟨_, rfl, by decide⟩
theorem witness_FirstStepAfterClear : ∃ t, issue .clearState (at_ 0x200 0x1200 []) = .ok t := ⟨_, rfl⟩
theorem witness_LoadProgramCopies :
    State.reset.fault = none ∧ (List.replicate 3584 (0xAA : Byte)).length ≤ 0xE00 ∧
      State.reset.pc.toNat + (List.replicate 3584 (0xAA : Byte)).length ≤ 0x1000 :=
  ⟨rfl, by rw [List.length_replicate], by rw [List.length_replicate]; decide⟩
theorem witness_LoadProgramCopies_large :
    State.reset.fault = none ∧ 0xE00 < (List.replicate 3585 (0xAA : Byte)).length := ⟨rfl, by rw [List.length_replicate]; decide⟩
theorem witness_LoadProgramCopies_high :
    (State.reset.setPc 0x201).fault = none ∧ 0x1000 < (State.reset.setPc 0x201).pc.toNat + (List.replicate 3584 (0xAA : Byte)).length :=
  ⟨rfl, by rw [List.length_replicate]; decide⟩
theorem witness_LoadFontCopies :
    State.reset.fault = none ∧
      Config.standardFont.toList = (none : Option (List Byte)).getD State.reset.config.defaultFont.toList ∧
      Config.standardFont.toList.length ≤ 432 :=
  ⟨by decide, by decide, by decide⟩
theorem witness_LoadFontCopies_large :
    432 < ((some (List.replicate 433 (0xAA : Byte))).getD State.reset.config.defaultFont.toList).length :=
  by rw [Option.getD_some, List.length_replicate]; decide
theorem witness_TickCountsDown : State.reset.fault = none := by decide
theorem witness_SetHaltedWritesHalted :
    ∃ t, issue (.setHalted false) State.reset = .ok t ∧ t.halted ≠ State.reset.halted := ⟨_, rfl, by decide⟩
theorem witness_DumpRangeReads : 7 < min 0x2000 4096 - min 0xFF8 4096 := by decide

end Sys2Proof.Tests
end

section
/-! SUPPORT. What an instruction, a Step and a transaction can leave, once each. Invariants and frames of the whole machine are
case analyses of these. -/

namespace Sys2Proof.Machine

/-! ## What an instruction can leave -/

/-- A state that instruction `i` can leave when it gives a next state, run from `s` (which holds the post-fetch `pc`): one
constructor per kind of write. Registers and `VF` are left free; everything else is exact, up to the cells drawn or stored. -/
inductive State.Leaves (s : State) : Instr → State → Prop where
  /-- Registers alone. -/
  | regs {i : Instr} (v : Vector Byte 16) : s.Leaves i { s with v := v, result := .ok }
  /-- `3xnn`, `4xnn`, `5xy0`, `9xy0` (R74 to R77). -/
  | skip {i : Instr} (c : Bool)
      (hi : (∃ x nn, i = .seByte x nn ∨ i = .sneByte x nn) ∨ ∃ x y, i = .seReg x y ∨ i = .sneReg x y) :
      s.Leaves i ((s.skipIf c).setResult .ok)
  /-- `1nnn` (R72). -/
  | jump (nnn : Addr) : s.Leaves (.jp nnn) ((s.setPc (addrOperand nnn)).setResult .ok)
  /-- `Bnnn` (R78). -/
  | jumpOffset (nnn : Addr) : s.Leaves (.jpOffset nnn) ((s.setPc (s.offsetTarget nnn)).setResult .ok)
  /-- `00EE` with an entry to pop (R71). -/
  | ret (h : s.sp.val ≠ 0) : s.Leaves .ret (s.pop.setResult .ok)
  /-- `00EE` on an empty stack (R71). -/
  | retEmpty (h : s.sp.val = 0) : s.Leaves .ret (s.setResult (.err .stackEmpty))
  /-- `2nnn` with room on the stack (R73). -/
  | call (nnn : Addr) (h : s.sp.val < Config.stackCapacity) :
      s.Leaves (.call nnn) (((s.push s.pc h).setPc (addrOperand nnn)).setResult .ok)
  /-- `2nnn` on a full stack (R73). -/
  | callFull (nnn : Addr) (h : ¬ s.sp.val < Config.stackCapacity) :
      s.Leaves (.call nnn) (s.setResult (.err .capacityExceeded))
  /-- `Annn`, `Fx1E`, `Fx29` (R95 to R97). -/
  | index {i : Instr} (a : Word) (v : Vector Byte 16)
      (hi : (∃ nnn, i = .ldI nnn) ∨ ∃ x, i = .addI x ∨ i = .ldFont x) :
      s.Leaves i { s with ir := a, v := v, result := .ok }
  /-- `00E0`, `Dxyn` (R103, R104): what is drawn keeps the framebuffer's form. -/
  | screen {i : Instr} (fb : Framebuffer) (v : Vector Byte 16) (hi : i = .cls ∨ ∃ x y n, i = .drw x y n)
      (hfb : Framebuffer.wf s.config.fbMode s.fb = true → Framebuffer.wf s.config.fbMode fb = true) :
      s.Leaves i { s with fb := fb, v := v, result := .ok }
  /-- `Fx15` (R112). -/
  | delay (x : Nibble) : s.Leaves (.ldDelay x) ((s.setDelay (s.reg x)).setResult .ok)
  /-- `Fx18` (R113). -/
  | sound (x : Nibble) : s.Leaves (.ldSound x) ((s.setSound (s.reg x)).setResult .ok)
  /-- `Fx33`, `Fx55`, with every address in range (R41, R98, R99). -/
  | store {i : Instr} (bytes : List Byte) (hi : ∃ x, i = .ldBcd x ∨ i = .storeRegs x)
      (hr : s.ir.toNat + bytes.length ≤ 0x1000) :
      s.Leaves i ((s.storeBytes s.ir.toNat bytes).setResult .ok)
  /-- `Cxnn` (R94). -/
  | random (x : Nibble) (nn answer : Byte) : s.Leaves (.rnd x nn) ((s.countDraw.maskedRandom x nn answer).setResult .ok)
  /-- `Ex9E`, `ExA1` (R108, R109). -/
  | keySkip {i : Instr} (c : Bool) (hi : ∃ x, i = .skp x ∨ i = .sknp x) :
      s.Leaves i ((s.countDraw.skipIf c).setResult .ok)
  /-- `Fx0A` (R110). -/
  | keyWait (x : Nibble) (answer : Option Nibble) : s.Leaves (.ldKey x) ((s.countDraw.awaitKey x answer).setResult .ok)

theorem State.setRegs_eq_withRegs (s : State) (i : Nat) (bytes : List Byte) :
    s.setRegs i bytes = { s with v := (s.setRegs i bytes).v } := by
  induction bytes generalizing s i with
  | nil => rfl
  | cons b rest ih => exact ih (s.setReg (BitVec.ofNat 4 i) b) (i + 1)

/-- The rows of a sprite on the screen are drawn inside it (R104). -/
theorem State.framebuffer_wf_drawn (s : State) (x y n : Nibble) (h : Framebuffer.wf s.config.fbMode s.fb = true) :
    Framebuffer.wf s.config.fbMode (s.drawn x y n).fb = true := by
  have hrow : s.spriteRow y < s.height := Nat.mod_lt _ (fbHeight_pos s.config.fbMode)
  refine Framebuffer.wf_drawRows s.config.fbMode _ _ _ _ h ?_
  change s.spriteRow y + (s.bytesFrom s.ir.toNat (s.spriteRows y n)).length ≤ s.height
  rw [State.length_bytesFrom, State.spriteRows]
  omega

/-! The instructions that can fault, in the shape of `execDrw_eq`: complete where the access or the key is in range, or fault. -/

theorem execLdBcd_eq (s : State) (x : Nibble) :
    execLdBcd x s =
      if s.ir.toNat + 3 ≤ 0x1000 then (s.storeBytes s.ir.toNat (bcdDigits (s.reg x))).complete
      else .fault (.memoryOutOfRange (max s.ir.toNat 0x1000) .write) := by
  rw [execLdBcd, State.memWrite_eq, length_bcdDigits]
  by_cases h : s.ir.toNat + 3 ≤ 0x1000
  · rw [if_pos (.inr h), if_pos h]
  · rw [if_neg (by omega), if_neg h]

theorem execStoreRegs_eq (s : State) (x : Nibble) :
    execStoreRegs x s =
      if s.ir.toNat + (x.toNat + 1) ≤ 0x1000 then (s.storeBytes s.ir.toNat (s.regsUpTo x)).complete
      else .fault (.memoryOutOfRange (max s.ir.toNat 0x1000) .write) := by
  rw [execStoreRegs, State.memWrite_eq, State.length_regsUpTo]
  by_cases h : s.ir.toNat + (x.toNat + 1) ≤ 0x1000
  · rw [if_pos (.inr h), if_pos h]
  · rw [if_neg (by omega), if_neg h]

theorem execLoadRegs_eq (s : State) (x : Nibble) :
    execLoadRegs x s =
      if s.ir.toNat + (x.toNat + 1) ≤ 0x1000 then (s.setRegs 0 (s.bytesFrom s.ir.toNat (x.toNat + 1))).complete
      else .fault (.memoryOutOfRange (max s.ir.toNat 0x1000) .read) := by
  rw [execLoadRegs, State.memRead_eq]
  by_cases h : s.ir.toNat + (x.toNat + 1) ≤ 0x1000
  · rw [if_pos (.inr h), if_pos h]
  · rw [if_neg (by omega), if_neg h]

theorem execSkp_eq (s : State) (x : Nibble) :
    execSkp x s =
      if (s.reg x).toNat ≤ 0xF then
        (s.countDraw.skipIf (Config.keyDown s.draws (BitVec.ofNat 4 (s.reg x).toNat))).complete
      else .fault (.keyIndexOutOfRange (s.reg x)) := by
  rw [execSkp]
  by_cases h : (s.reg x).toNat ≤ 0xF
  · rw [keyIndex_of_le h, if_pos h]
  · rw [keyIndex_of_lt (by omega), if_neg h]

theorem execSknp_eq (s : State) (x : Nibble) :
    execSknp x s =
      if (s.reg x).toNat ≤ 0xF then
        (s.countDraw.skipIf (!Config.keyDown s.draws (BitVec.ofNat 4 (s.reg x).toNat))).complete
      else .fault (.keyIndexOutOfRange (s.reg x)) := by
  rw [execSknp]
  by_cases h : (s.reg x).toNat ≤ 0xF
  · rw [keyIndex_of_le h, if_pos h]
  · rw [keyIndex_of_lt (by omega), if_neg h]

/-- Complete or fault: a next state means the first. -/
theorem State.of_complete_else_fault {c : Prop} [Decidable c] {u t : State} {f : Fault}
    (h : (if c then u.complete else .fault f) = .next t) : c ∧ t = u.setResult .ok := by
  by_cases hc : c
  · rw [if_pos hc] at h; cases h; exact ⟨hc, rfl⟩
  · rw [if_neg hc] at h; cases h

theorem State.leaves_of_execRet {s t : State} (h : execRet s = .next t) : s.Leaves .ret t := by
  rw [execRet] at h
  split at h
  case isTrue hsp => cases h; exact .retEmpty hsp
  case isFalse hsp => cases h; exact .ret hsp

theorem State.leaves_of_execCall {s t : State} {nnn : Addr} (h : execCall nnn s = .next t) : s.Leaves (.call nnn) t := by
  rw [execCall] at h
  split at h
  case isTrue hsp => cases h; exact .call nnn hsp
  case isFalse hsp => cases h; exact .callFull nnn hsp

/-- Whatever an instruction leaves is one of the named states. -/
theorem exec_leaves {i : Instr} {s t : State} (h : exec i s = .next t) : s.Leaves i t := by
  cases i with
  | cls => cases h; exact .screen _ _ (.inl rfl) (fun _ => rfl)
  | ret => exact State.leaves_of_execRet h
  | jp nnn => cases h; exact .jump nnn
  | call nnn => exact State.leaves_of_execCall h
  | seByte x nn => cases h; exact .skip _ (.inl ⟨x, nn, .inl rfl⟩)
  | sneByte x nn => cases h; exact .skip _ (.inl ⟨x, nn, .inr rfl⟩)
  | seReg x y => cases h; exact .skip _ (.inr ⟨x, y, .inl rfl⟩)
  | sneReg x y => cases h; exact .skip _ (.inr ⟨x, y, .inr rfl⟩)
  | ldByte | addByte | ldReg | orReg | andReg | xorReg | addReg | subReg | shr | subnReg | shl | ldRegDelay =>
    cases h; exact .regs _
  | ldI nnn => cases h; exact .index _ _ (.inl ⟨nnn, rfl⟩)
  | jpOffset nnn => cases h; exact .jumpOffset nnn
  | rnd x nn => cases h; exact .random x nn _
  | drw x y n =>
    rw [exec, execDrw_eq] at h
    obtain ⟨_, rfl⟩ := State.of_complete_else_fault h
    exact .screen _ _ (.inr ⟨x, y, n, rfl⟩) (s.framebuffer_wf_drawn x y n)
  | skp x =>
    rw [exec, execSkp_eq] at h
    obtain ⟨_, rfl⟩ := State.of_complete_else_fault h
    exact .keySkip _ ⟨x, .inl rfl⟩
  | sknp x =>
    rw [exec, execSknp_eq] at h
    obtain ⟨_, rfl⟩ := State.of_complete_else_fault h
    exact .keySkip _ ⟨x, .inr rfl⟩
  | ldKey x => cases h; exact .keyWait x _
  | ldDelay x => cases h; exact .delay x
  | ldSound x => cases h; exact .sound x
  | addI x => cases h; exact .index _ _ (.inr ⟨x, .inl rfl⟩)
  | ldFont x => cases h; exact .index _ _ (.inr ⟨x, .inr rfl⟩)
  | ldBcd x =>
    rw [exec, execLdBcd_eq] at h
    obtain ⟨hr, rfl⟩ := State.of_complete_else_fault h
    exact .store _ ⟨x, .inl rfl⟩ hr
  | storeRegs x =>
    rw [exec, execStoreRegs_eq] at h
    obtain ⟨hr, rfl⟩ := State.of_complete_else_fault h
    exact .store _ ⟨x, .inr rfl⟩ (by simpa using hr)
  | loadRegs x =>
    rw [exec, execLoadRegs_eq] at h
    obtain ⟨_, rfl⟩ := State.of_complete_else_fault h
    rw [State.setRegs_eq_withRegs]; exact .regs _

/-! ## What a Step can leave -/

/-- A Step that gives a next state fetched in range from a state with no fault mark, and returned the error of an unrecognized
encoding or ran an instruction. -/
theorem step_next_cases {s t : State} (h : step s = .next t) :
    s.fault = none ∧ s.pc.toNat ≤ 0xFFE ∧
      (t = s.afterErr .unrecognizedEncoding ∨
        ∃ i, decodeWord (s.wordAt s.pc.toNat) = .ok i ∧ (s.setPc (s.pc + 2)).Leaves i t) := by
  obtain ⟨_, _, he⟩ | ⟨_, _, he⟩ | ⟨hf, hp, _, he⟩ | ⟨hf, hp, i, hd, he⟩ := step_cases s
  · rw [he] at h; cases h
  · rw [he] at h; cases h
  · rw [he] at h; cases h; exact ⟨hf, hp, .inl rfl⟩
  · rw [he] at h; exact ⟨hf, hp, .inr ⟨i, hd, exec_leaves h⟩⟩

/-- Up to the end of memory, `pc + 2` does not wrap. -/
theorem toNat_pc_add_two {pc : Word} (h : pc.toNat ≤ 0x1000) : (pc + 2).toNat = pc.toNat + 2 := by
  rw [BitVec.toNat_add]
  change (pc.toNat + 2) % 65536 = _
  omega

/-! ## What a transaction can leave -/

/-- A state that a transaction can leave, issued to `s`. -/
inductive State.Issues (s : State) : Transaction → State → Prop where
  | init (cfg : Config) : s.Issues (.init cfg) (s.initAfter cfg)
  | clearState : s.Issues .clearState s.clearState
  /-- An image that does not fit writes nothing (R142). -/
  | loadProgramTooLarge (bytes : List Byte) : s.Issues (.loadProgram bytes) (s.setResult (.err .capacityExceeded))
  | loadProgram (bytes : List Byte) (h : s.pc.toNat + bytes.length ≤ 0x1000) :
      s.Issues (.loadProgram bytes) ((s.storeBytes s.pc.toNat bytes).setResult .ok)
  | loadFont (table : Option (List Byte)) (h : (s.fontTable table).length ≤ 432) :
      s.Issues (.loadFont table) ((s.storeBytes 0x50 (s.fontTable table)).setResult .ok)
  | stepNext (t : State) (h : step s = .next t) : s.Issues .step t
  /-- A fault leaves the state before the Step, marked (R120). -/
  | stepFault (f : Fault) (h : step s = .fault f) : s.Issues .step (s.markFault f)
  | tick : s.Issues .tick s.tick
  | setHalted (b : Bool) : s.Issues (.setHalted b) (s.setHalted b)

theorem State.issues_loadProgram (s : State) (bytes : List Byte) : s.Issues (.loadProgram bytes) (s.loadProgram bytes) := by
  rw [State.loadProgram]
  split
  case isTrue => exact .loadProgramTooLarge bytes
  case isFalse hfits => exact .loadProgram bytes (Nat.le_of_not_lt fun hlt => hfits (.inr hlt))

theorem State.issues_loadFont {s t : State} {table : Option (List Byte)} (h : s.loadFont table = .ok t) :
    s.Issues (.loadFont table) t := by
  obtain ⟨_, _, he⟩ | ⟨hl, he⟩ := s.loadFont_cases table
  · rw [he] at h; cases h
  · rw [he] at h; cases h; exact .loadFont table hl

theorem State.issues_stepTransaction {s t : State} (h : s.stepTransaction = .ok t) : s.Issues .step t := by
  rw [State.stepTransaction] at h
  cases hs : step s with
  | next u => rw [hs] at h; cases h; exact .stepNext _ hs
  | fault f => rw [hs] at h; cases h; exact .stepFault f hs
  | refused r => rw [hs] at h; cases h

/-- Whatever a transaction leaves is one of the named states, the fault mark set (only `Init`, R121) or not. -/
theorem issue_issues {tr : Transaction} {s t : State} (h : issue tr s = .ok t) : s.Issues tr t := by
  cases hf : s.fault with
  | some f =>
    cases tr with
    | init cfg => cases h; exact .init cfg
    | _ => simp [issue, hf] at h
  | none =>
    cases tr <;> simp only [issue, hf] at h
    case init cfg => cases h; exact .init cfg
    case clearState => cases h; exact .clearState
    case loadProgram bytes => cases h; exact s.issues_loadProgram bytes
    case loadFont table => exact State.issues_loadFont h
    case step => exact State.issues_stepTransaction h
    case tick => cases h; exact .tick
    case setHalted b => cases h; exact .setHalted b

end Sys2Proof.Machine
end

section
/-! SUPPORT. The invariant of the whole machine, kept by every instruction, Step and transaction. -/

namespace Sys2Proof.Machine

variable {s t : State} {i : Instr}

theorem State.Leaves.memory_wf (h : s.Leaves i t) (hm : Memory.wf s.mem = true) : Memory.wf t.mem = true := by
  cases h with
  | store bytes hi hr => exact s.memory_wf_storeBytes _ bytes hm hr
  | _ => simpa using hm

/-- A call pushes the post-fetch `pc`, which is at most 0x1000 (R64, R73). -/
theorem State.Leaves.stack_wf (h : s.Leaves i t) (hs : Stack.wf s.stack = true) (hp : s.pc.toNat ≤ 0x1000) :
    Stack.wf t.stack = true := by
  cases h with
  | call nnn hsp => exact s.stack_wf_push s.pc hsp hs hp
  | _ => simpa using hs

theorem State.Leaves.framebuffer_wf (h : s.Leaves i t) (hf : Framebuffer.wf s.config.fbMode s.fb = true) :
    Framebuffer.wf t.config.fbMode t.fb = true := by
  cases h with
  | screen fb v hi hfb => exact hfb hf
  | _ => simpa using hf

/-- A `pc` that an instruction leaves is at most 0x10FE, the greatest target of `Bnnn` (R20, R78). -/
theorem State.Leaves.pc_le (h : s.Leaves i t) (hs : Stack.wf s.stack = true) (hp : s.pc.toNat ≤ 0x1000)
    (hp2 : 2 ≤ s.pc.toNat) : t.pc.toNat ≤ 0x10FE := by
  have hskip : (s.pc + 2).toNat = s.pc.toNat + 2 := toNat_pc_add_two hp
  cases h with
  | jump nnn =>
    have := nnn.isLt
    simp only [State.setResult_pc, State.setPc_pc, toNat_addrOperand]; omega
  | jumpOffset nnn =>
    have := nnn.isLt
    have := (s.reg (s.offsetReg nnn)).isLt
    simp only [State.setResult_pc, State.setPc_pc, State.toNat_offsetTarget]; omega
  | ret _ =>
    have := s.stackAt_le hs (s.sp.val - 1)
    simp only [State.setResult_pc, State.pop_pc]; omega
  | call nnn _ =>
    have := nnn.isLt
    simp only [State.setResult_pc, State.setPc_pc, toNat_addrOperand]; omega
  | skip c => cases c <;> simp <;> omega
  | keySkip c => cases c <;> simp <;> omega
  | keyWait x answer =>
    cases answer with
    | none =>
      change (s.pc - 2).toNat ≤ 0x10FE
      rw [BitVec.toNat_sub_of_le (show (2 : Word) ≤ s.pc from hp2)]; omega
    | some k => change s.pc.toNat ≤ 0x10FE; omega
  | _ => simp; omega

/-- Every Step that gives a next state keeps the invariant. -/
theorem step_keeps_inv (hs : s.Inv) (h : step s = .next t) : t.Inv := by
  obtain ⟨hmem, hstack, hfb, _⟩ := hs
  obtain ⟨_, hp, rfl | ⟨i, _, hl⟩⟩ := step_next_cases h
  · refine ⟨hmem, hstack, hfb, ?_⟩
    change (s.pc + 2).toNat ≤ 0x10FE
    rw [toNat_pc_add_two (by omega)]; omega
  · have hpc : (s.setPc (s.pc + 2)).pc.toNat = s.pc.toNat + 2 := toNat_pc_add_two (by omega)
    exact ⟨hl.memory_wf hmem, hl.stack_wf hstack (by omega), hl.framebuffer_wf hfb,
      hl.pc_le hstack (by omega) (by omega)⟩

theorem State.inv_initAfter (s : State) (cfg : Config) : (s.initAfter cfg).Inv :=
  ⟨rfl, rfl, rfl, show (0x200 : Word).toNat ≤ 0x10FE by decide⟩

/-- `ClearState` drops cells of memory, and empties the stack and the framebuffer (R140). -/
theorem State.Inv.clearState (hs : s.Inv) : s.clearState.Inv := by
  obtain ⟨hmem, _⟩ := hs
  exact ⟨Cells.wf_filter _ _ _ hmem, rfl, rfl, show (0x200 : Word).toNat ≤ 0x10FE by decide⟩

/-- A copy into memory, all of it in range, keeps the invariant. -/
theorem State.Inv.storeBytes (hs : s.Inv) {a : Nat} {bytes : List Byte} (hr : a + bytes.length ≤ 0x1000) (r : Result) :
    ((s.storeBytes a bytes).setResult r).Inv := by
  obtain ⟨hmem, hstack, hfb, hpc⟩ := hs
  exact ⟨s.memory_wf_storeBytes a bytes hmem hr, by simpa using hstack, by simpa using hfb, by simpa using hpc⟩

end Sys2Proof.Machine
end

section
/-! SUPPORT. Which instructions write which field, for the whole machine. -/

namespace Sys2Proof.Machine

variable {s t : State} {i : Instr}

theorem State.Leaves.ir_writer (h : s.Leaves i t) (hne : t.ir ≠ s.ir) :
    (∃ nnn, i = .ldI nnn) ∨ ∃ x, i = .addI x ∨ i = .ldFont x := by
  cases h with
  | index a v hi => exact hi
  | _ => simp at hne

theorem State.Leaves.stack_writer (h : s.Leaves i t) (hne : t.sp ≠ s.sp ∨ t.stack ≠ s.stack) :
    i = .ret ∨ ∃ nnn, i = .call nnn := by
  cases h with
  | ret _ => exact .inl rfl
  | call nnn _ => exact .inr ⟨nnn, rfl⟩
  | _ => simp at hne

theorem State.Leaves.fb_writer (h : s.Leaves i t) (hne : t.fb ≠ s.fb) : i = .cls ∨ ∃ x y n, i = .drw x y n := by
  cases h with
  | screen fb v hi _ => exact hi
  | _ => simp at hne

theorem State.Leaves.delayTimer_writer (h : s.Leaves i t) (hne : t.delayTimer ≠ s.delayTimer) : ∃ x, i = .ldDelay x := by
  cases h with
  | delay x => exact ⟨x, rfl⟩
  | _ => simp at hne

theorem State.Leaves.soundTimer_writer (h : s.Leaves i t) (hne : t.soundTimer ≠ s.soundTimer) : ∃ x, i = .ldSound x := by
  cases h with
  | sound x => exact ⟨x, rfl⟩
  | _ => simp at hne

theorem State.Leaves.mem_writer (h : s.Leaves i t) (hne : t.mem ≠ s.mem) : ∃ x, i = .ldBcd x ∨ i = .storeRegs x := by
  cases h with
  | store bytes hi _ => exact hi
  | _ => simp at hne

/-- An instruction draws no answer, or it is one of the four that query the host and draws one (R9). -/
theorem State.Leaves.draws (h : s.Leaves i t) :
    t.draws = s.draws ∨ (t.draws = s.draws + 1 ∧
      ((∃ x nn, i = .rnd x nn) ∨ ∃ x, i = .skp x ∨ i = .sknp x ∨ i = .ldKey x)) := by
  cases h with
  | random x nn _ => exact .inr ⟨rfl, .inl ⟨x, nn, rfl⟩⟩
  | keySkip c hi => exact .inr ⟨by simp, .inr (hi.imp fun _ hx => hx.imp_right .inl)⟩
  | keyWait x _ => exact .inr ⟨by simp, .inr ⟨x, .inr (.inr rfl)⟩⟩
  | _ => exact .inl (by simp)

/-- No instruction writes the parameters, `halted` or the fault mark. -/
theorem State.Leaves.parameters (h : s.Leaves i t) :
    t.config = s.config ∧ t.halted = s.halted ∧ t.fault = s.fault := by
  cases h <;> simp

theorem step_keeps_parameters (h : step s = .next t) :
    t.config = s.config ∧ t.halted = s.halted ∧ t.fault = s.fault := by
  obtain ⟨_, _, rfl | ⟨_, _, hl⟩⟩ := step_next_cases h
  · exact ⟨rfl, rfl, rfl⟩
  · exact hl.parameters

end Sys2Proof.Machine
end

section
/-! The statements of the family `00_scope.md`, settled. -/

namespace Sys2Proof.Machine

/-- Settles O42: the Step by its inversion, each other transaction by what it writes. -/
theorem transactionsKeepTheInvariant : Obligations.TransactionsKeepTheInvariant := by
  intro tr s t hs h
  cases issue_issues h with
  | init cfg => exact s.inv_initAfter cfg
  | clearState => exact hs.clearState
  | loadProgram bytes hr => exact hs.storeBytes hr .ok
  | loadFont table hl => exact hs.storeBytes (by omega) .ok
  | stepNext _ hstep => exact step_keeps_inv hs hstep
  | loadProgramTooLarge | stepFault | tick | setHalted => exact hs

/-- Settles O39: an unrecognized encoding writes `pc` and `result` alone, and an instruction what its inversion names. -/
theorem onlyNamedInstructionsWrite : Obligations.OnlyNamedInstructionsWrite := by
  intro s t h
  obtain ⟨_, _, rfl | ⟨i, hd, hl⟩⟩ := step_next_cases h
  · simp [State.afterErr]
  · rw [hd]
    refine ⟨fun hne => ⟨i, rfl, hl.ir_writer hne⟩, fun hne => ⟨i, rfl, hl.stack_writer hne⟩,
      fun hne => ⟨i, rfl, hl.fb_writer hne⟩, fun hne => ?_, fun hne => ?_, fun hne => ?_,
      hl.draws.imp_right fun hdraw => ⟨hdraw.1, i, rfl, hdraw.2⟩⟩
    · exact (hl.delayTimer_writer hne).imp fun _ => congrArg _
    · exact (hl.soundTimer_writer hne).imp fun _ => congrArg _
    · exact (hl.mem_writer hne).imp fun _ => Or.imp (congrArg _) (congrArg _)

/-- Settles O40: a Step by its inversion, each other transaction by what it writes. -/
theorem parametersFixed : Obligations.ParametersFixed := by
  refine ⟨fun s t => step_keeps_parameters, fun tr s t h hinit => ?_⟩
  cases issue_issues h with
  | init cfg => exact absurd rfl (hinit cfg)
  | stepNext _ hstep =>
    obtain ⟨hconfig, hhalted, hfault⟩ := step_keeps_parameters hstep
    exact ⟨hconfig, .inl hfault, fun _ => hhalted⟩
  | stepFault f hstep => exact ⟨rfl, .inr ⟨rfl, f, hstep, rfl⟩, fun _ => rfl⟩
  | clearState => exact ⟨rfl, .inl rfl, fun hstep => by cases hstep⟩
  | _ => simp

end Sys2Proof.Machine
end

section
/-! SUPPORT. The fields an instruction does not look at: the call stack (`00EE` and `2nnn` apart), the sound timer (`Fx18` writes
it) and `halted`. A change of them before an instruction is the same change after it. -/

namespace Sys2Proof.Machine

variable (stack : Stack → Stack) (sound : Byte → Byte) (halted : Bool → Bool)

/-- The state with its call stack, sound timer and `halted` changed. -/
def State.mapHidden (s : State) : State :=
  { s with stack := stack s.stack, soundTimer := sound s.soundTimer, halted := halted s.halted }

/-- An outcome with its next state, where there is one, changed. -/
def mapNext (f : State → State) : Host.Outcome State Fault Refusal → Host.Outcome State Fault Refusal
  | .next s => .next (f s)
  | .fault r => .fault r
  | .refused r => .refused r

theorem sameOutcome_mapNext {rel : State → State → Prop} {f : State → State} {o : Host.Outcome State Fault Refusal}
    (h : ∀ t, o = .next t → rel t (f t)) : SameOutcome rel o (mapNext f o) := by
  cases o with
  | next t => exact h t rfl
  | fault r => rfl
  | refused r => rfl

/-! The two instructions that check the stack, a case at a time. -/

theorem execRet_of_empty {s : State} (h : s.sp.val = 0) : execRet s = s.fail .stackEmpty := if_pos h

theorem execRet_of_nonempty {s : State} (h : s.sp.val ≠ 0) : execRet s = s.pop.complete := if_neg h

theorem execCall_of_room {s : State} (nnn : Addr) (h : s.sp.val < Config.stackCapacity) :
    execCall nnn s = ((s.push s.pc h).setPc (addrOperand nnn)).complete := dif_pos h

theorem execCall_of_full {s : State} (nnn : Addr) (h : ¬ s.sp.val < Config.stackCapacity) :
    execCall nnn s = s.fail .capacityExceeded := dif_neg h

/-! The operations over the state that recurse or branch; the others commute with the change by definition. -/

theorem State.skipIf_mapHidden (s : State) (c : Bool) :
    (s.mapHidden stack sound halted).skipIf c = (s.skipIf c).mapHidden stack sound halted := by
  cases c <;> rfl

theorem State.awaitKey_mapHidden (s : State) (x : Nibble) (answer : Option Nibble) :
    (s.mapHidden stack sound halted).awaitKey x answer = (s.awaitKey x answer).mapHidden stack sound halted := by
  cases answer <;> rfl

theorem State.storeBytes_mapHidden (s : State) (a : Nat) (bytes : List Byte) :
    (s.mapHidden stack sound halted).storeBytes a bytes = (s.storeBytes a bytes).mapHidden stack sound halted := by
  induction bytes generalizing s a with
  | nil => rfl
  | cons b rest ih => exact ih (s.setByte a b) (a + 1)

theorem State.setRegs_mapHidden (s : State) (i : Nat) (bytes : List Byte) :
    (s.mapHidden stack sound halted).setRegs i bytes = (s.setRegs i bytes).mapHidden stack sound halted := by
  induction bytes generalizing s i with
  | nil => rfl
  | cons b rest ih => exact ih (s.setReg (BitVec.ofNat 4 i) b) (i + 1)

theorem State.bytesFrom_mapHidden (s : State) (a n : Nat) :
    (s.mapHidden stack sound halted).bytesFrom a n = s.bytesFrom a n :=
  State.bytesFrom_congr (s := s) (t := s.mapHidden stack sound halted) (fun _ => rfl) a n

theorem State.drawn_mapHidden (s : State) (x y n : Nibble) :
    (s.mapHidden stack sound halted).drawn x y n = s.drawn x y n := by
  rw [State.drawn, State.bytesFrom_mapHidden]; rfl

/-- Two instructions that complete alike where the same condition holds, and fault alike where it does not. -/
theorem mapNext_complete_else_fault (c : Prop) [Decidable c] {f : State → State} {u v : State} (r : Fault)
    (h : v.complete = mapNext f u.complete) :
    (if c then v.complete else .fault r) = mapNext f (if c then u.complete else .fault r) := by
  by_cases hc : c
  · rw [if_pos hc, if_pos hc, h]
  · rw [if_neg hc, if_neg hc]; rfl

/-- An instruction commutes with a change of the hidden fields, where it keeps the stack for `00EE` and `2nnn`, which use it, and
the sound timer for `Fx18`, which writes it. -/
theorem exec_mapHidden (i : Instr) (s : State)
    (hstack : stack = id ∨ (i ≠ .ret ∧ ∀ nnn, i ≠ .call nnn)) (hsound : sound = id ∨ ∀ x, i ≠ .ldSound x) :
    exec i (s.mapHidden stack sound halted) = mapNext (State.mapHidden stack sound halted) (exec i s) := by
  cases i with
  | ret =>
    obtain rfl | ⟨hret, _⟩ := hstack
    · rw [exec, exec]
      by_cases hsp : s.sp.val = 0
      · rw [execRet_of_empty hsp, execRet_of_empty (s := s.mapHidden id sound halted) hsp]; rfl
      · rw [execRet_of_nonempty hsp, execRet_of_nonempty (s := s.mapHidden id sound halted) hsp]; rfl
    · exact absurd rfl hret
  | call nnn =>
    obtain rfl | ⟨_, hcall⟩ := hstack
    · rw [exec, exec]
      by_cases hsp : s.sp.val < Config.stackCapacity
      · rw [execCall_of_room nnn hsp, execCall_of_room (s := s.mapHidden id sound halted) nnn hsp]; rfl
      · rw [execCall_of_full nnn hsp, execCall_of_full (s := s.mapHidden id sound halted) nnn hsp]; rfl
    · exact absurd rfl (hcall nnn)
  | ldSound x =>
    obtain rfl | hsound := hsound
    · rfl
    · exact absurd rfl (hsound x)
  | seByte | sneByte | seReg | sneReg =>
    exact congrArg State.complete (State.skipIf_mapHidden stack sound halted s _)
  | ldKey x => exact congrArg State.complete (State.awaitKey_mapHidden stack sound halted s.countDraw x _)
  | drw x y n =>
    simp only [exec, execDrw_eq, State.drawn_mapHidden]
    exact mapNext_complete_else_fault _ _ rfl
  | skp x =>
    simp only [exec, execSkp_eq]
    exact mapNext_complete_else_fault _ _
      (congrArg State.complete (State.skipIf_mapHidden stack sound halted s.countDraw _))
  | sknp x =>
    simp only [exec, execSknp_eq]
    exact mapNext_complete_else_fault _ _
      (congrArg State.complete (State.skipIf_mapHidden stack sound halted s.countDraw _))
  | ldBcd x =>
    simp only [exec, execLdBcd_eq]
    exact mapNext_complete_else_fault _ _
      (congrArg State.complete (State.storeBytes_mapHidden stack sound halted s _ _))
  | storeRegs x =>
    simp only [exec, execStoreRegs_eq]
    exact mapNext_complete_else_fault _ _
      (congrArg State.complete (State.storeBytes_mapHidden stack sound halted s _ _))
  | loadRegs x =>
    simp only [exec, execLoadRegs_eq, State.bytesFrom_mapHidden]
    exact mapNext_complete_else_fault _ _
      (congrArg State.complete (State.setRegs_mapHidden stack sound halted s _ _))
  | _ => rfl

/-- The Steps before and after such a change fetch alike, so they have the same outcome, up to a relation, where that relation holds
of the states an unrecognized encoding leaves and every instruction has the same outcome up to it. -/
theorem step_mapHidden {rel : State → State → Prop} (s : State)
    (herr : rel (s.afterErr .unrecognizedEncoding) ((s.mapHidden stack sound halted).afterErr .unrecognizedEncoding))
    (hexec : ∀ i, SameOutcome rel (exec i (s.setPc (s.pc + 2)))
      (exec i ((s.setPc (s.pc + 2)).mapHidden stack sound halted))) :
    SameOutcome rel (step s) (step (s.mapHidden stack sound halted)) := by
  have hfault : (s.mapHidden stack sound halted).fault = s.fault := rfl
  have hpc : (s.mapHidden stack sound halted).pc = s.pc := rfl
  have hword (a : Nat) : (s.mapHidden stack sound halted).wordAt a = s.wordAt a := rfl
  simp only [step, State.fetch, hfault, hpc, hword]
  cases s.fault with
  | some f => rfl
  | none =>
    by_cases hp : 0xFFE < s.pc.toNat
    · simp only [if_pos hp]; rfl
    · have hp' : s.pc.toNat ≤ 0xFFE := by omega
      simp only [if_neg hp, State.advance_eq _ hp', State.advance_eq (s.mapHidden stack sound halted) hp']
      cases decodeWord (s.wordAt s.pc.toNat) with
      | error e => exact herr
      | ok i => exact hexec i

end Sys2Proof.Machine
end

section
/-! SUPPORT. Stack entries at index `sp` or above (R22, R30): a return reads the entry below `sp`, a call writes the one at `sp`, and
no other instruction uses the stack. -/

namespace Sys2Proof.Machine

theorem State.SameButStale.exists_mapHidden {s t : State} (h : s.SameButStale t) :
    ∃ stack, t = s.mapHidden (fun _ => stack) id id ∧ ∀ i, i < s.sp.val → t.stackAt i = s.stackAt i := ⟨t.stack, h⟩

theorem State.SameButStale.execRet {s t : State} (h : s.SameButStale t) :
    SameOutcome State.SameButStale (execRet s) (execRet t) := by
  obtain ⟨stack, rfl, hlive⟩ := h.exists_mapHidden
  by_cases hsp : s.sp.val = 0
  · rw [execRet_of_empty hsp, execRet_of_empty (s := s.mapHidden (fun _ => stack) id id) hsp]
    exact ⟨rfl, hlive⟩
  · rw [execRet_of_nonempty hsp, execRet_of_nonempty (s := s.mapHidden (fun _ => stack) id id) hsp]
    have htop := hlive (s.sp.val - 1) (by omega)
    refine ⟨?_, fun i (hi : i < s.sp.val - 1) => hlive i (by omega)⟩
    exact congrArg (fun a => (({ s.pop with pc := a, stack := stack } : State).setResult .ok)) htop

theorem State.SameButStale.execCall {s t : State} (h : s.SameButStale t) (nnn : Addr) :
    SameOutcome State.SameButStale (execCall nnn s) (execCall nnn t) := by
  obtain ⟨stack, rfl, hlive⟩ := h.exists_mapHidden
  by_cases hsp : s.sp.val < Config.stackCapacity
  · rw [execCall_of_room nnn hsp, execCall_of_room (s := s.mapHidden (fun _ => stack) id id) nnn hsp]
    refine ⟨rfl, fun i (hi : i < s.sp.val + 1) => ?_⟩
    have hs := s.stackAt_push s.pc hsp i
    have ht := (s.mapHidden (fun _ => stack) id id).stackAt_push s.pc hsp i
    refine ht.trans (Eq.trans ?_ hs.symm)
    exact ite_congr rfl (fun _ => rfl) fun hne => hlive i (by omega)
  · rw [execCall_of_full nnn hsp, execCall_of_full (s := s.mapHidden (fun _ => stack) id id) nnn hsp]
    exact ⟨rfl, hlive⟩

/-- No instruction observes a stale stack entry. -/
theorem State.SameButStale.exec {s t : State} (h : s.SameButStale t) (i : Instr) :
    SameOutcome State.SameButStale (exec i s) (exec i t) := by
  by_cases hi : i = .ret ∨ ∃ nnn, i = .call nnn
  · obtain rfl | ⟨nnn, rfl⟩ := hi
    · exact h.execRet
    · exact h.execCall nnn
  · obtain ⟨stack, rfl, hlive⟩ := h.exists_mapHidden
    have hstack : i ≠ .ret ∧ ∀ nnn, i ≠ .call nnn := by simpa using hi
    rw [exec_mapHidden _ _ _ i s (.inr hstack) (.inl rfl)]
    refine sameOutcome_mapNext fun t ht => ⟨rfl, fun j hj => ?_⟩
    obtain ⟨hsp, hst⟩ : t.sp = s.sp ∧ t.stack = s.stack := by
      by_contra hne
      exact hi ((exec_leaves ht).stack_writer (not_and_or.mp hne))
    rw [hsp] at hj
    rw [State.stackAt, State.stackAt, hst]
    exact hlive j hj

end Sys2Proof.Machine
end

section
/-! SUPPORT. The program counter after an instruction (R20). -/

namespace Sys2Proof.Machine

/-- The skips (R74 to R77, R108, R109). -/
def IsSkip (i : Instr) : Prop :=
  (∃ x nn, i = .seByte x nn ∨ i = .sneByte x nn) ∨ (∃ x y, i = .seReg x y ∨ i = .sneReg x y) ∨
    ∃ x, i = .skp x ∨ i = .sknp x

/-- From the post-fetch `pc`: an instruction keeps it, or is a skip, a jump, a call, a jump with offset, a return or the key wait. -/
theorem State.Leaves.pc_cases {s t : State} {i : Instr} (h : s.Leaves i t) :
    t.pc = s.pc ∨ (t.pc = s.pc + 2 ∧ IsSkip i) ∨
    (∃ nnn, (i = .jp nnn ∨ i = .call nnn) ∧ t.pc = addrOperand nnn) ∨
    (∃ nnn, i = .jpOffset nnn ∧ t.pc = s.offsetTarget nnn) ∨
    (i = .ret ∧ t.pc = s.stackAt (s.sp.val - 1)) ∨
    (∃ x, i = .ldKey x ∧ t.pc = s.pc - 2) := by
  cases h with
  | skip c hi =>
    cases c with
    | false => exact .inl rfl
    | true => exact .inr (.inl ⟨rfl, hi.imp_right .inl⟩)
  | keySkip c hi =>
    cases c with
    | false => exact .inl rfl
    | true => exact .inr (.inl ⟨rfl, .inr (.inr hi)⟩)
  | jump nnn => exact .inr (.inr (.inl ⟨nnn, .inl rfl, rfl⟩))
  | call nnn _ => exact .inr (.inr (.inl ⟨nnn, .inr rfl, rfl⟩))
  | jumpOffset nnn => exact .inr (.inr (.inr (.inl ⟨nnn, rfl, rfl⟩)))
  | ret _ => exact .inr (.inr (.inr (.inr (.inl ⟨rfl, rfl⟩))))
  | keyWait x answer =>
    cases answer with
    | none => exact .inr (.inr (.inr (.inr (.inr ⟨x, rfl, rfl⟩))))
    | some k => exact .inl rfl
  | _ => exact .inl (by simp)

end Sys2Proof.Machine
end

section
/-! The statements of the family `10_state.md`, settled. -/

namespace Sys2Proof.Machine

/-- Settles O41: an unrecognized encoding writes `pc` and `result` alone, and an instruction keeps each part of the invariant. -/
theorem stepKeepsTheInvariant : Obligations.StepKeepsTheInvariant :=
  fun _ _ => step_keeps_inv

/-- Settles O44: the two states fetch alike, and no instruction observes a stale entry. -/
theorem staleStackUnobservable : Obligations.StaleStackUnobservable := by
  intro s t h
  obtain ⟨stack, rfl, hlive⟩ := h.exists_mapHidden
  exact step_mapHidden _ _ _ s ⟨rfl, hlive⟩ fun i =>
    State.SameButStale.exec (t := (s.setPc (s.pc + 2)).mapHidden (fun _ => stack) id id) ⟨rfl, hlive⟩ i

/-- Settles O7: the fetch advance, and then what the instruction does to `pc`. -/
theorem pcChangesOnlyInTheNamedWays : Obligations.PcChangesOnlyInTheNamedWays := by
  intro s t h
  obtain ⟨_, _, rfl | ⟨i, hd, hl⟩⟩ := step_next_cases h
  · exact .inl rfl
  · obtain hpc | ⟨hpc, hskip⟩ | ⟨nnn, hi, hpc⟩ | ⟨nnn, hi, hpc⟩ | ⟨hi, hpc⟩ | ⟨x, hi, hpc⟩ := hl.pc_cases
    · exact .inl hpc
    · refine .inr ⟨i, hd, .inl ⟨?_, hskip⟩⟩
      rw [hpc, State.setPc_pc, BitVec.add_assoc]; rfl
    · exact .inr ⟨i, hd, .inr (.inl ⟨nnn, hi, by rw [hpc, toNat_addrOperand]⟩)⟩
    · exact .inr ⟨i, hd, .inr (.inr (.inl ⟨nnn, _, hi, by rw [hpc, State.toNat_offsetTarget]; rfl⟩))⟩
    · exact .inr ⟨i, hd, .inr (.inr (.inr (.inl ⟨hi, hpc⟩)))⟩
    · refine .inr ⟨i, hd, .inr (.inr (.inr (.inr ⟨x, hi, ?_⟩)))⟩
      rw [hpc, State.setPc_pc, BitVec.add_sub_cancel]

/-- Settles O11: every instruction commutes with a change of `halted`, and none writes it. -/
theorem stepIgnoresHalted : Obligations.StepIgnoresHalted := by
  intro s b
  refine step_mapHidden id id (fun _ => b) s ⟨rfl, rfl⟩ fun i => ?_
  rw [exec_mapHidden _ _ _ i _ (.inl rfl) (.inl rfl)]
  refine sameOutcome_mapNext fun t ht => ?_
  obtain ⟨_, hhalted, _⟩ := (exec_leaves ht).parameters
  exact ⟨hhalted, rfl⟩

/-- Settles O45: `Fx18` overwrites the timer, and every other instruction commutes with a change of it. -/
theorem soundTimerUnread : Obligations.SoundTimerUnread := by
  intro s b
  refine step_mapHidden id (fun _ => b) id s rfl fun i => ?_
  by_cases hi : ∃ x, i = .ldSound x
  · obtain ⟨x, rfl⟩ := hi; rfl
  · rw [exec_mapHidden _ _ _ i _ (.inl rfl) (.inr (by simpa using hi))]
    exact sameOutcome_mapNext fun t _ => rfl

end Sys2Proof.Machine
end

section
/-! SUPPORT. A Step, a case at a time (R62 to R65), and the registers that `Fx55` has stored (R99). -/

namespace Sys2Proof.Machine

variable {s : State}

theorem step_of_pc_gt (hf : s.fault = none) (hp : 0xFFE < s.pc.toNat) : step s = .fault (.fetchOutOfRange s.pc) := by
  obtain ⟨f, hf', _⟩ | ⟨_, _, hstep⟩ | ⟨_, hp', _⟩ | ⟨_, hp', _⟩ := step_cases s
  · rw [hf] at hf'; cases hf'
  · exact hstep
  · omega
  · omega

/-- A fetch in range: the Step ends with the error, or runs an instruction. -/
theorem step_cases_of_pc_le (hf : s.fault = none) (hp : s.pc.toNat ≤ 0xFFE) :
    (∃ e, decodeWord (s.wordAt s.pc.toNat) = .error e ∧ step s = .next (s.afterErr .unrecognizedEncoding)) ∨
    ∃ i, decodeWord (s.wordAt s.pc.toNat) = .ok i ∧ step s = exec i (s.setPc (s.pc + 2)) := by
  obtain ⟨f, hf', _⟩ | ⟨_, hp', _⟩ | ⟨_, _, ⟨e, hd⟩, hstep⟩ | ⟨_, _, i, hd, hstep⟩ := step_cases s
  · rw [hf] at hf'; cases hf'
  · omega
  · exact .inl ⟨e, hd, hstep⟩
  · exact .inr ⟨i, hd, hstep⟩

theorem step_of_decode_ok {i : Instr} (hf : s.fault = none) (hp : s.pc.toNat ≤ 0xFFE)
    (hd : decodeWord (s.wordAt s.pc.toNat) = .ok i) : step s = exec i (s.setPc (s.pc + 2)) := by
  obtain ⟨e, hd', _⟩ | ⟨j, hd', hstep⟩ := step_cases_of_pc_le hf hp
  · rw [hd] at hd'; cases hd'
  · rw [hd] at hd'; cases hd'; exact hstep

/-- A Step that faults, issued by the host, leaves the state marked (R67, R120). -/
theorem issue_step_of_fault {f : Fault} (hf : s.fault = none) (hstep : step s = .fault f) :
    issue .step s = .ok (s.markFault f) := by
  simp only [issue, hf, State.stepTransaction, hstep]

theorem State.toNat_wordAt (s : State) (a : Nat) :
    (s.wordAt a).toNat = (s.byteAt a).toNat * 256 + (s.byteAt (a + 1)).toNat := toNat_bigEndian _ _

theorem exec_storeRegs_of_le (x : Nibble) (h : s.ir.toNat + x.toNat ≤ 0xFFF) :
    exec (.storeRegs x) s = .next ((s.storeBytes s.ir.toNat (s.regsUpTo x)).setResult .ok) := by
  rw [exec, execStoreRegs_eq, if_pos (by omega)]; rfl

theorem State.byteAt_storeBytes_regsUpTo (s : State) (a : Nat) {x i : Nibble} (h : i.toNat ≤ x.toNat) :
    (s.storeBytes a (s.regsUpTo x)).byteAt (a + i.toNat) = s.reg i := by
  rw [State.byteAt_storeBytes, State.length_regsUpTo, if_pos (by omega), Nat.add_sub_cancel_left,
    State.getD_regsUpTo s x i h]

/-- With two registers or more stored, the word at the store's address is `V0`, `V1` (R38). -/
theorem State.wordAt_storeBytes_regsUpTo (s : State) (a : Nat) {x : Nibble} (h : 1 ≤ x.toNat) :
    (s.storeBytes a (s.regsUpTo x)).wordAt a = bigEndian (s.reg 0) (s.reg 1) :=
  congrArg₂ bigEndian (s.byteAt_storeBytes_regsUpTo a (i := 0) (Nat.zero_le _))
    (s.byteAt_storeBytes_regsUpTo a (i := 1) h)

end Sys2Proof.Machine
end

section
/-! The statements of the family `20_memory.md`, settled. -/

namespace Sys2Proof.Machine

/-- Settles O32: the store leaves `V0`, `V1` at `pc` and keeps `pc` and the mark, and a Step fetches from memory as it is. -/
theorem storeIsSeenByNextFetch : Obligations.StoreIsSeenByNextFetch := by
  intro s x i hfault hir hx hrange hdecode
  refine ⟨_, exec_storeRegs_of_le x hrange, ?_⟩
  have hword : (s.storeBytes s.ir.toNat (s.regsUpTo x)).wordAt s.pc.toNat = bigEndian (s.reg 0) (s.reg 1) := by
    rw [← hir]; exact s.wordAt_storeBytes_regsUpTo s.ir.toNat hx
  refine step_of_decode_ok ?_ ?_ ?_
  · rw [State.setResult_fault, State.storeBytes_fault, hfault]
  · rw [State.setResult_pc, State.storeBytes_pc, ← hir]; omega
  · rw [State.setResult_pc, State.storeBytes_pc]
    exact (congrArg decodeWord hword).trans hdecode

/-- Settles O6: the two sides of 0xFFE, and below it the two ways a word decodes. -/
theorem fetchRange : Obligations.FetchRange := by
  intro s hfault
  refine ⟨fun hp => ?_, fun hp => ⟨s.wordAt s.pc.toNat, s.toNat_wordAt _, ?_⟩⟩
  · have hstep := step_of_pc_gt hfault hp
    exact ⟨hstep, issue_step_of_fault hfault hstep⟩
  · obtain ⟨e, hd, hstep⟩ | ⟨i, hd, hstep⟩ := step_cases_of_pc_le hfault hp
    · rw [hd]; exact hstep
    · rw [hd]; exact hstep

/-- Settles O55: a dump is the bytes read from one clamped end to the other. -/
theorem dumpRangeReads : Obligations.DumpRangeReads := by
  intro s start stop
  refine ⟨s.length_bytesFrom _ _, fun i hi => ?_⟩
  exact (s.getElem?_bytesFrom _ _ i).trans (if_pos hi)

end Sys2Proof.Machine
end

section
/-! SUPPORT. The decoder and the encoder are inverse; the rows of the opcode table; the unrecognized words (R50 to R60). -/

namespace Sys2Proof

theorem decodeWord_of_some {w : Word} {i : Instr} (h : decodeFamily w = some i) : decodeWord w = .ok i := by
  rw [decodeWord, h]

theorem decodeWord_of_none {w : Word} (h : decodeFamily w = none) :
    decodeWord w = .error (.unrecognizedEncoding w) := by
  rw [decodeWord, h]

/-- The decoder reads the fields that the encoder wrote, format by format (R51, R53). -/
theorem decodeFamily_encode (i : Instr) : decodeFamily (encode i) = some i := by
  cases i with
  | cls | ret => rfl
  | jp nnn | call nnn | ldI nnn | jpOffset nnn =>
    simp only [encode, decodeFamily, opField_formatNNN, nnnField_formatNNN]; rfl
  | seByte x nn | sneByte x nn | ldByte x nn | addByte x nn | rnd x nn
  | skp x | sknp x | ldRegDelay x | ldKey x | ldDelay x | ldSound x | addI x | ldFont x | ldBcd x
  | storeRegs x | loadRegs x =>
    simp only [encode, decodeFamily, opField_formatXNN, xField_formatXNN, nnField_formatXNN]; rfl
  | drw x y _ | seReg x y | ldReg x y | orReg x y | andReg x y | xorReg x y | addReg x y | subReg x y | shr x y
  | subnReg x y | shl x y | sneReg x y =>
    simp only [encode, decodeFamily, opField_formatXYN, xField_formatXYN, yField_formatXYN, nField_formatXYN]; rfl

theorem decodeWord_encode (i : Instr) : decodeWord (encode i) = .ok i :=
  decodeWord_of_some (decodeFamily_encode i)

/-- Only the first two bytes are read (R50). -/
theorem decode_wordBytes_append {w : Word} {i : Instr} (h : decodeWord w = .ok i) (rest : List Byte) :
    decode (wordBytes w ++ rest) = .ok (i, rest) := by
  simp only [wordBytes, List.cons_append, List.nil_append, decode, bigEndian_bytes, h]

theorem Instr.wellFormed_eq_true (i : Instr) : i.wellFormed = true := by
  cases i <;> rfl

theorem Instr.row_mem_opcodeRows (i : Instr) : i.row ∈ opcodeRows :=
  List.contains_iff_mem.mp i.wellFormed_eq_true

open Laws.EncodesInRow in
theorem encode_and_mask (i : Instr) : encode i &&& i.row.mask = i.row.value := by
  cases i
  exacts [cls, ret, jp _, call _, seByte _ _, sneByte _ _, seReg _ _, ldByte _ _, addByte _ _, ldReg _ _, orReg _ _,
    andReg _ _, xorReg _ _, addReg _ _, subReg _ _, shr _ _, subnReg _ _, shl _ _, sneReg _ _, ldI _, jpOffset _, rnd _ _,
    drw _ _ _, skp _, sknp _, ldRegDelay _, ldKey _, ldDelay _, ldSound _, addI _, ldFont _, ldBcd _, storeRegs _,
    loadRegs _]

/-! A word of a family is the format's word from its own fields. -/

theorem formatNNN_of_opField {w : Word} {op : Nibble} (h : opField w = op) : formatNNN op (nnnField w) = w := by
  rw [← h, formatNNN_fields]

theorem formatXNN_of_opField {w : Word} {op : Nibble} (h : opField w = op) :
    formatXNN op (xField w) (nnField w) = w := by
  rw [← h, formatXNN_fields]

theorem formatXYN_of_opField {w : Word} {op : Nibble} (h : opField w = op) :
    formatXYN op (xField w) (yField w) (nField w) = w := by
  rw [← h, formatXYN_fields]

theorem encode_of_decodeFamily0 {w : Word} {i : Instr} (h : decodeFamily0 w = some i) : encode i = w := by
  unfold decodeFamily0 at h
  split_ifs at h with h0 h1
  · cases h; exact h0.symm
  · cases h; exact h1.symm

theorem encode_of_decodeFamily5 {x y n : Nibble} {i : Instr} (h : decodeFamily5 x y n = some i) :
    encode i = formatXYN 0x5 x y n := by
  unfold decodeFamily5 at h
  split_ifs at h with hn
  cases h; rw [hn]; rfl

theorem encode_of_decodeFamily8 {x y n : Nibble} {i : Instr} (h : decodeFamily8 x y n = some i) :
    encode i = formatXYN 0x8 x y n := by
  unfold decodeFamily8 at h
  split_ifs at h with hn hn hn hn hn hn hn hn hn <;> (cases h; rw [hn]; rfl)

theorem encode_of_decodeFamily9 {x y n : Nibble} {i : Instr} (h : decodeFamily9 x y n = some i) :
    encode i = formatXYN 0x9 x y n := by
  unfold decodeFamily9 at h
  split_ifs at h with hn
  cases h; rw [hn]; rfl

theorem encode_of_decodeFamilyE {x : Nibble} {nn : Byte} {i : Instr} (h : decodeFamilyE x nn = some i) :
    encode i = formatXNN 0xE x nn := by
  unfold decodeFamilyE at h
  split_ifs at h with hn hn <;> (cases h; rw [hn]; rfl)

theorem encode_of_decodeFamilyF {x : Nibble} {nn : Byte} {i : Instr} (h : decodeFamilyF x nn = some i) :
    encode i = formatXNN 0xF x nn := by
  unfold decodeFamilyF at h
  split_ifs at h with hn hn hn hn hn hn hn hn hn <;> (cases h; rw [hn]; rfl)

/-- The family that the dispatch leaves to its last arm (R53). -/
theorem eq_xF_of_ne (op : Nibble) : op ≠ 0x0 → op ≠ 0x1 → op ≠ 0x2 → op ≠ 0x3 → op ≠ 0x4 → op ≠ 0x5 → op ≠ 0x6 →
    op ≠ 0x7 → op ≠ 0x8 → op ≠ 0x9 → op ≠ 0xA → op ≠ 0xB → op ≠ 0xC → op ≠ 0xD → op ≠ 0xE → op = 0xF := by
  intros; bv_omega

/-- The dispatch (R53, R59): a family in which every word is its one instruction, or one that sub-dispatches. -/
theorem decodeFamily_cases (w : Word) :
    (opField w ∉ [0x0#4, 0x5#4, 0x8#4, 0x9#4, 0xE#4, 0xF#4] ∧ ∃ i, decodeFamily w = some i ∧ encode i = w) ∨
    (opField w = 0x0 ∧ decodeFamily w = decodeFamily0 w) ∨
    (opField w = 0x5 ∧ decodeFamily w = decodeFamily5 (xField w) (yField w) (nField w)) ∨
    (opField w = 0x8 ∧ decodeFamily w = decodeFamily8 (xField w) (yField w) (nField w)) ∨
    (opField w = 0x9 ∧ decodeFamily w = decodeFamily9 (xField w) (yField w) (nField w)) ∨
    (opField w = 0xE ∧ decodeFamily w = decodeFamilyE (xField w) (nnField w)) ∨
    (opField w = 0xF ∧ decodeFamily w = decodeFamilyF (xField w) (nnField w)) := by
  unfold decodeFamily
  split
  next hop => exact .inr (.inl ⟨hop, rfl⟩)
  next hop => exact .inl ⟨by rw [hop]; decide, _, rfl, formatNNN_of_opField hop⟩
  next hop => exact .inl ⟨by rw [hop]; decide, _, rfl, formatNNN_of_opField hop⟩
  next hop => exact .inl ⟨by rw [hop]; decide, _, rfl, formatXNN_of_opField hop⟩
  next hop => exact .inl ⟨by rw [hop]; decide, _, rfl, formatXNN_of_opField hop⟩
  next hop => exact .inr (.inr (.inl ⟨hop, rfl⟩))
  next hop => exact .inl ⟨by rw [hop]; decide, _, rfl, formatXNN_of_opField hop⟩
  next hop => exact .inl ⟨by rw [hop]; decide, _, rfl, formatXNN_of_opField hop⟩
  next hop => exact .inr (.inr (.inr (.inl ⟨hop, rfl⟩)))
  next hop => exact .inr (.inr (.inr (.inr (.inl ⟨hop, rfl⟩))))
  next hop => exact .inl ⟨by rw [hop]; decide, _, rfl, formatNNN_of_opField hop⟩
  next hop => exact .inl ⟨by rw [hop]; decide, _, rfl, formatNNN_of_opField hop⟩
  next hop => exact .inl ⟨by rw [hop]; decide, _, rfl, formatXNN_of_opField hop⟩
  next hop => exact .inl ⟨by rw [hop]; decide, _, rfl, formatXYN_of_opField hop⟩
  next hop => exact .inr (.inr (.inr (.inr (.inr (.inl ⟨hop, rfl⟩)))))
  next h0 h1 h2 h3 h4 h5 h6 h7 h8 h9 hA hB hC hD hE =>
    have hop := eq_xF_of_ne _ h0 h1 h2 h3 h4 h5 h6 h7 h8 h9 hA hB hC hD hE
    exact .inr (.inr (.inr (.inr (.inr (.inr ⟨hop, rfl⟩)))))

theorem encode_of_decodeFamily {w : Word} {i : Instr} (h : decodeFamily w = some i) : encode i = w := by
  obtain ⟨_, j, hd, hj⟩ | ⟨_, hd⟩ | ⟨hop, hd⟩ | ⟨hop, hd⟩ | ⟨hop, hd⟩ | ⟨hop, hd⟩ | ⟨hop, hd⟩ := decodeFamily_cases w
  · cases hd.symm.trans h; exact hj
  · exact encode_of_decodeFamily0 (hd.symm.trans h)
  · exact (encode_of_decodeFamily5 (hd.symm.trans h)).trans (formatXYN_of_opField hop)
  · exact (encode_of_decodeFamily8 (hd.symm.trans h)).trans (formatXYN_of_opField hop)
  · exact (encode_of_decodeFamily9 (hd.symm.trans h)).trans (formatXYN_of_opField hop)
  · exact (encode_of_decodeFamilyE (hd.symm.trans h)).trans (formatXNN_of_opField hop)
  · exact (encode_of_decodeFamilyF (hd.symm.trans h)).trans (formatXNN_of_opField hop)

/-- The unrecognized set of R60, family by family. -/
def Unrecognized (w : Word) : Prop :=
  (opField w = 0x0 ∧ w ≠ 0x00E0 ∧ w ≠ 0x00EE) ∨
  ((opField w = 0x5 ∨ opField w = 0x9) ∧ nField w ≠ 0) ∨
  (opField w = 0x8 ∧ nField w ∈ [0x8#4, 0x9#4, 0xA#4, 0xB#4, 0xC#4, 0xD#4, 0xF#4]) ∨
  (opField w = 0xE ∧ nnField w ∉ [0x9E#8, 0xA1#8]) ∨
  (opField w = 0xF ∧ nnField w ∉ [0x07#8, 0x0A#8, 0x15#8, 0x18#8, 0x1E#8, 0x29#8, 0x33#8, 0x55#8, 0x65#8])

theorem ite_some_eq_none {α : Type} {c : Prop} [Decidable c] {a : α} {o : Option α} :
    (if c then some a else o) = none ↔ ¬c ∧ o = none := by
  split <;> simp [*]

theorem decodeFamily8_eq_none_iff (x y n : Nibble) :
    decodeFamily8 x y n = none ↔ n ∈ [0x8#4, 0x9#4, 0xA#4, 0xB#4, 0xC#4, 0xD#4, 0xF#4] := by
  simp only [decodeFamily8, ite_some_eq_none]
  clear x y
  decide +revert

theorem decodeFamily_eq_none_iff (w : Word) : decodeFamily w = none ↔ Unrecognized w := by
  obtain ⟨hop, i, hd, _⟩ | ⟨hop, hd⟩ | ⟨hop, hd⟩ | ⟨hop, hd⟩ | ⟨hop, hd⟩ | ⟨hop, hd⟩ | ⟨hop, hd⟩ := decodeFamily_cases w
  · simp_all [Unrecognized]
  · simp [hd, Unrecognized, hop, decodeFamily0, ite_some_eq_none]
  · simp [hd, Unrecognized, hop, decodeFamily5]
  · simp [hd, Unrecognized, hop, decodeFamily8_eq_none_iff]
  · simp [hd, Unrecognized, hop, decodeFamily9]
  · simp [hd, Unrecognized, hop, decodeFamilyE, ite_some_eq_none]
  · simp [hd, Unrecognized, hop, decodeFamilyF, ite_some_eq_none]

/-! The fixed bits that a row selects by, as fields. -/

theorem append_inj {n m : Nat} {a a' : BitVec n} {b b' : BitVec m} (h : a ++ b = a' ++ b') : a = a' ∧ b = b' := by
  have hb : b = b' := by
    rw [← BitVec.extractLsb'_append_eq_right (a := a) (b := b), h, BitVec.extractLsb'_append_eq_right]
  subst hb
  exact ⟨(BitVec.append_left_inj b).mp h, rfl⟩

theorem opField_of_and {w : Word} {op : Nibble} (h : w &&& 0xF000 = op ++ (0 : Addr)) : opField w = op := by
  rw [← formatNNN_fields w, formatNNN_op] at h
  exact (append_inj h).1

theorem formatNNN_of_and {w : Word} {op : Nibble} (h : w &&& 0xF000 = op ++ (0 : Addr)) :
    formatNNN op (nnnField w) = w := formatNNN_of_opField (opField_of_and h)

theorem formatXNN_of_and {w : Word} {op : Nibble} (h : w &&& 0xF000 = op ++ (0 : Addr)) :
    formatXNN op (xField w) (nnField w) = w := formatXNN_of_opField (opField_of_and h)

theorem formatXYN_of_and {w : Word} {op : Nibble} (h : w &&& 0xF000 = op ++ (0 : Addr)) :
    formatXYN op (xField w) (yField w) (nField w) = w := formatXYN_of_opField (opField_of_and h)

theorem formatXSS_of_and {w : Word} {op : Nibble} {nn : Byte} (h : w &&& 0xF0FF = op ++ (0 : Nibble) ++ nn) :
    formatXNN op (xField w) nn = w := by
  rw [← formatXNN_fields w, formatXNN_sub] at h
  obtain ⟨hop, hnn⟩ := append_inj h
  rw [← hnn]; exact formatXNN_of_opField (append_inj hop).1

theorem formatXYS_of_and {w : Word} {op n : Nibble} (h : w &&& 0xF00F = op ++ (0 : Byte) ++ n) :
    formatXYN op (xField w) (yField w) n = w := by
  rw [← formatXYN_fields w, formatXYN_sub] at h
  obtain ⟨hop, hn⟩ := append_inj h
  rw [← hn]; exact formatXYN_of_opField (append_inj hop).1

/-- A word that a row of the table selects is the word of an instruction of that row. -/
theorem exists_encode_of_selects (w : Word) :
    ∀ r ∈ opcodeRows, w &&& r.mask = r.value → ∃ i, i.row = r ∧ encode i = w := by
  simp only [opcodeRows, List.cons_append, List.nil_append, List.forall_mem_cons]
  exact ⟨
    fun h => ⟨.cls, rfl, (BitVec.and_allOnes.symm.trans h).symm⟩,
    fun h => ⟨.ret, rfl, (BitVec.and_allOnes.symm.trans h).symm⟩,
    fun h => ⟨.jp _, rfl, formatNNN_of_and h⟩,
    fun h => ⟨.call _, rfl, formatNNN_of_and h⟩,
    fun h => ⟨.seByte _ _, rfl, formatXNN_of_and h⟩,
    fun h => ⟨.sneByte _ _, rfl, formatXNN_of_and h⟩,
    fun h => ⟨.seReg _ _, rfl, formatXYS_of_and h⟩,
    fun h => ⟨.ldByte _ _, rfl, formatXNN_of_and h⟩,
    fun h => ⟨.addByte _ _, rfl, formatXNN_of_and h⟩,
    fun h => ⟨.ldReg _ _, rfl, formatXYS_of_and h⟩,
    fun h => ⟨.orReg _ _, rfl, formatXYS_of_and h⟩,
    fun h => ⟨.andReg _ _, rfl, formatXYS_of_and h⟩,
    fun h => ⟨.xorReg _ _, rfl, formatXYS_of_and h⟩,
    fun h => ⟨.addReg _ _, rfl, formatXYS_of_and h⟩,
    fun h => ⟨.subReg _ _, rfl, formatXYS_of_and h⟩,
    fun h => ⟨.shr _ _, rfl, formatXYS_of_and h⟩,
    fun h => ⟨.subnReg _ _, rfl, formatXYS_of_and h⟩,
    fun h => ⟨.shl _ _, rfl, formatXYS_of_and h⟩,
    fun h => ⟨.sneReg _ _, rfl, formatXYS_of_and h⟩,
    fun h => ⟨.ldI _, rfl, formatNNN_of_and h⟩,
    fun h => ⟨.jpOffset _, rfl, formatNNN_of_and h⟩,
    fun h => ⟨.rnd _ _, rfl, formatXNN_of_and h⟩,
    fun h => ⟨.drw _ _ _, rfl, formatXYN_of_and h⟩,
    fun h => ⟨.skp _, rfl, formatXSS_of_and h⟩,
    fun h => ⟨.sknp _, rfl, formatXSS_of_and h⟩,
    fun h => ⟨.ldRegDelay _, rfl, formatXSS_of_and h⟩,
    fun h => ⟨.ldKey _, rfl, formatXSS_of_and h⟩,
    fun h => ⟨.ldDelay _, rfl, formatXSS_of_and h⟩,
    fun h => ⟨.ldSound _, rfl, formatXSS_of_and h⟩,
    fun h => ⟨.addI _, rfl, formatXSS_of_and h⟩,
    fun h => ⟨.ldFont _, rfl, formatXSS_of_and h⟩,
    fun h => ⟨.ldBcd _, rfl, formatXSS_of_and h⟩,
    fun h => ⟨.storeRegs _, rfl, formatXSS_of_and h⟩,
    fun h => ⟨.loadRegs _, rfl, formatXSS_of_and h⟩,
    List.forall_mem_nil _⟩

end Sys2Proof

namespace Sys2Proof.Machine

theorem State.Fetches.step_of_error {s : State} {w : Word} (h : s.Fetches w) (hd : ∃ e, decodeWord w = .error e) :
    step s = .next (s.afterErr .unrecognizedEncoding) := by
  obtain ⟨hfault, hpc, rfl⟩ := h
  obtain ⟨e, hd⟩ := hd
  obtain ⟨_, _, hstep⟩ | ⟨i, hd', _⟩ := step_cases_of_pc_le hfault hpc
  · exact hstep
  · cases hd.symm.trans hd'

end Sys2Proof.Machine
end

section
/-! The statements of the family `30_encoding.md`, settled. -/

namespace Sys2Proof.Machine

/-- Settles O1: the fields of a format's word are those it was put together from. -/
theorem decodeOfEncode : Obligations.DecodeOfEncode := fun i rest =>
  ⟨i.wellFormed_eq_true, decodeWord_encode i, decode_wordBytes_append (decodeWord_encode i) rest⟩

/-- Settles O2: a word is its format's word from its own fields, and a sub-operation is the value it was decoded by. -/
theorem encodeOfDecode : Obligations.EncodeOfDecode :=
  fun _ _ h => encode_of_decodeFamily (decodeWord_ok h)

/-- Settles O3: a row selects just the words of its own instructions, so two rows selecting a word have one instruction. -/
theorem everyWordOneRowOrUnrecognized : Obligations.EveryWordOneRowOrUnrecognized := by
  intro w
  refine ⟨?_, ⟨fun ⟨e, he⟩ => ?_, fun h => ?_⟩, fun s => State.Fetches.step_of_error⟩
  · cases hd : decodeFamily w with
    | some i =>
      have hw : encode i = w := encode_of_decodeFamily hd
      refine .inl ⟨i, decodeWord_of_some hd, i.row_mem_opcodeRows, hw ▸ encode_and_mask i, fun r hr hsel => ?_⟩
      obtain ⟨j, rfl, rfl⟩ := exists_encode_of_selects w r hr hsel
      rw [decodeFamily_encode] at hd
      cases hd; rfl
    | none =>
      refine .inr ⟨decodeWord_of_none hd, fun r hr hsel => ?_⟩
      obtain ⟨j, _, rfl⟩ := exists_encode_of_selects w r hr hsel
      rw [decodeFamily_encode] at hd
      cases hd
  · exact (decodeFamily_eq_none_iff w).mp (decodeWord_error he).2
  · exact ⟨_, decodeWord_of_none ((decodeFamily_eq_none_iff w).mpr h)⟩

end Sys2Proof.Machine
end

section
/-! The statements of the family `40_execution_cycle.md`, settled. -/

namespace Sys2Proof.Machine

/-- Settles O5: the word a state fetches is the one at `pc`, and a Step runs what that word decodes to. -/
theorem stepRunsTheDecodedInstruction : Obligations.StepRunsTheDecodedInstruction := by
  rintro s w i ⟨hfault, hpc, rfl⟩ hdecode
  exact step_of_decode_ok hfault hpc hdecode

end Sys2Proof.Machine
end

section
/-! SUPPORT. The frame of an instruction, one state operation after another: from the empty change on, each operation keeps a
footprint that names what it writes. The skips and the unrecognized words of families 5 and 9 (R55, R74 to R77). -/

namespace Sys2Proof.Machine

variable {s t : State} {f : Footprint}

theorem State.changesOnly_refl (s : State) (hdraw : f.draw = false) : s.ChangesOnly s f where
  regs _ _ := rfl
  bytes _ _ := rfl
  pc _ := rfl
  ir _ := rfl
  sp _ := rfl
  stack _ _ := rfl
  fb _ _ _ := rfl
  delay _ := rfl
  sound _ := rfl
  draws := by rw [hdraw]; rfl
  halted := rfl
  fault := rfl
  config := rfl

theorem State.ChangesOnly.setResult (h : s.ChangesOnly t f) (r : Result) : s.ChangesOnly (t.setResult r) f := { h with }

theorem State.ChangesOnly.setPc (h : s.ChangesOnly t f) (hpc : f.pc = true) (a : Word) : s.ChangesOnly (t.setPc a) f :=
  { h with pc := by simp [hpc] }

theorem State.ChangesOnly.push (h : s.ChangesOnly t f) (hstack : f.stack = true) (a : Word)
    (hroom : t.sp.val < Config.stackCapacity) : s.ChangesOnly (t.push a hroom) f :=
  { h with sp := by simp [hstack], stack := by simp [hstack] }

theorem State.ChangesOnly.pop (h : s.ChangesOnly t f) (hpc : f.pc = true) (hstack : f.stack = true) :
    s.ChangesOnly t.pop f :=
  { h with pc := by simp [hpc], sp := by simp [hstack], stack := by simp [hstack] }

theorem State.changesOnly_setPc (s : State) (a : Word) (r : Result) :
    s.ChangesOnly ((s.setPc a).setResult r) { pc := true } :=
  ((s.changesOnly_refl rfl).setPc rfl a).setResult r

theorem State.skipIf_eq_setPc (s : State) (c : Bool) : s.skipIf c = s.setPc (if c then s.pc + 2 else s.pc) := by
  cases c <;> rfl

/-- How each of the four skips of R74 to R77 ends, for its condition. -/
theorem State.complete_skipIf (s : State) (c : Prop) [Decidable c] :
    ∃ t, (s.skipIf c).complete = .next t ∧ t.result = .ok ∧ t.pc = (if c then s.pc + 2 else s.pc) ∧
      s.ChangesOnly t { pc := true } := by
  refine ⟨_, rfl, rfl, by simp, ?_⟩
  rw [State.skipIf_eq_setPc]
  exact s.changesOnly_setPc _ _

/-- The skip of the opposite condition, with the two ends of the Step in the same order. -/
theorem State.complete_skipIf_not (s : State) (c : Prop) [Decidable c] :
    ∃ t, (s.skipIf (¬c)).complete = .next t ∧ t.result = .ok ∧ t.pc = (if c then s.pc else s.pc + 2) ∧
      s.ChangesOnly t { pc := true } := by
  simpa only [ite_not] using s.complete_skipIf (¬c)

/-- Families 5 and 9 have one word for each `x` and `y` (R55, R60). -/
theorem decodeWord_formatXYN_error {op n : Nibble} (x y : Nibble) (hop : op = 0x5 ∨ op = 0x9) (hn : n ≠ 0) :
    ∃ e, decodeWord (formatXYN op x y n) = .error e := by
  have hun : Unrecognized (formatXYN op x y n) := .inr (.inl ⟨by simpa using hop, by simpa using hn⟩)
  exact ⟨_, decodeWord_of_none ((decodeFamily_eq_none_iff _).mpr hun)⟩

end Sys2Proof.Machine
end

section
/-! The statements of the family `41_control_flow.md`, settled. -/

namespace Sys2Proof.Machine

/-- Settles O16: the call leaves the post-fetch `pc` just below the new `sp`, where a return reads it wherever `pc` is. -/
theorem returnUndoesCall : Obligations.ReturnUndoesCall := by
  intro s nnn a hroom
  refine ⟨_, _, execCall_of_room nnn hroom, execRet_of_nonempty (Nat.succ_ne_zero s.sp.val), rfl, ?_, rfl, fun i hi => ?_⟩
  · exact (s.stackAt_push s.pc hroom s.sp.val).trans (if_pos rfl)
  · exact (s.stackAt_push s.pc hroom i).trans (if_neg (by omega))

/-- Settles O18: the two instructions are one skip and its opposite, and any other low nibble is an unrecognized word. -/
theorem skipsOnRegisters : Obligations.SkipsOnRegisters := by
  intro s x y
  refine ⟨decodeWord_encode (.seReg x y), decodeWord_encode (.sneReg x y), s.complete_skipIf _, s.complete_skipIf_not _,
    fun n hn hfetch => ?_⟩
  obtain h | h := hfetch
  · exact h.step_of_error (decodeWord_formatXYN_error x y (.inl rfl) hn)
  · exact h.step_of_error (decodeWord_formatXYN_error x y (.inr rfl) hn)

/-- Settles O19: the sum of a 12-bit target and a byte does not wrap in 16 bits. -/
theorem jumpWithOffset : Obligations.JumpWithOffset := by
  intro s nnn
  have hpc := s.toNat_offsetTarget nnn
  refine ⟨decodeWord_encode (.jpOffset nnn), _, rfl, rfl, fun hlegacy => ?_, fun hmodern => ?_, ?_, s.changesOnly_setPc _ _⟩
  · exact hpc.trans (by rw [State.offsetReg_eq, if_pos hlegacy])
  · exact hpc.trans (by rw [State.offsetReg_eq, if_neg (by simp [hmodern])])
  · have htarget := nnn.isLt
    have hoffset := (s.reg (s.offsetReg nnn)).isLt
    change (s.offsetTarget nnn).toNat ≤ 0x10FE
    omega

/-- Settles O13: the two sides of an empty stack. -/
theorem returnPops : Obligations.ReturnPops := by
  refine ⟨decodeWord_encode .ret, fun s => ⟨execRet_of_empty, fun hlive => ?_⟩⟩
  exact ⟨_, execRet_of_nonempty hlive.ne', rfl, rfl, rfl, fun _ => rfl,
    ((s.changesOnly_refl rfl).pop rfl rfl).setResult _⟩

/-- Settles O14: the target is the whole operand field, zero-extended. -/
theorem jumpSetsPc : Obligations.JumpSetsPc := fun s nnn =>
  ⟨decodeWord_encode (.jp nnn), _, rfl, rfl, toNat_addrOperand nnn, s.changesOnly_setPc _ _⟩

/-- Settles O15: the two sides of a full stack; with room, the call is a push and a jump. -/
theorem callPushes : Obligations.CallPushes := by
  intro s nnn
  refine ⟨decodeWord_encode (.call nnn), fun hfull => ?_, fun hroom => ?_⟩
  · exact execCall_of_full nnn hfull.not_lt
  · exact ⟨_, execCall_of_room nnn hroom, rfl, rfl, toNat_addrOperand nnn, s.stackAt_push s.pc hroom,
      (((s.changesOnly_refl rfl).push rfl s.pc hroom).setPc rfl _).setResult _⟩

/-- Settles O17: the two instructions are one skip and its opposite. -/
theorem skipsOnImmediate : Obligations.SkipsOnImmediate := fun s x nn =>
  ⟨decodeWord_encode (.seByte x nn), decodeWord_encode (.sneByte x nn), s.complete_skipIf _, s.complete_skipIf_not _⟩

end Sys2Proof.Machine
end

section
/-! SUPPORT. The frame of a register write, with and without the flag, and of a draw; how an instruction ends that puts a result
into `Vx` and a flag into `VF` (R84; D14). -/

namespace Sys2Proof.Machine

variable {s t : State} {f : Footprint} {x : Nibble}

@[simp] theorem State.reg_setReg_self (s : State) (x : Nibble) (b : Byte) : (s.setReg x b).reg x = b :=
  (s.reg_setReg x x b).trans (if_pos rfl)

theorem State.ChangesOnly.setReg (h : s.ChangesOnly t f) (hx : x ∈ f.regs) (b : Byte) : s.ChangesOnly (t.setReg x b) f :=
  { h with
    regs := fun r hr => by
      have hne : r ≠ x := fun e => hr (e ▸ hx)
      rw [State.reg_setReg, if_neg hne, h.regs r hr] }

theorem State.ChangesOnly.setResultAndFlag (h : s.ChangesOnly t f) (hx : x ∈ f.regs) (hF : 0xF ∈ f.regs) (b flag : Byte) :
    s.ChangesOnly (t.setResultAndFlag x b flag) f := (h.setReg hx b).setReg hF flag

theorem State.changesOnly_countDraw (s : State) (hdraw : f.draw = true) : s.ChangesOnly s.countDraw f :=
  { s.changesOnly_refl (f := { f with draw := false }) rfl with draws := by simp [hdraw] }

theorem State.changesOnly_setReg (s : State) (x : Nibble) (b : Byte) (r : Result) :
    s.ChangesOnly ((s.setReg x b).setResult r) { regs := [x] } :=
  ((s.changesOnly_refl rfl).setReg (List.mem_singleton_self x) b).setResult r

/-- With `x` = F the result is lost and the flag remains (R84; D14). -/
theorem State.complete_setResultAndFlag (s : State) (x : Nibble) (b flag : Byte) :
    ∃ t, (s.setResultAndFlag x b flag).complete = .next t ∧ t.result = .ok ∧ (x ≠ 0xF → t.reg x = b) ∧
      t.reg 0xF = flag ∧ s.ChangesOnly t { regs := [x, 0xF] } := by
  have hreg := fun r => s.reg_setResultAndFlag x r b flag
  refine ⟨_, rfl, rfl, fun hx => ?_, (hreg 0xF).trans (if_pos rfl),
    ((s.changesOnly_refl rfl).setResultAndFlag (by simp) (by simp) b flag).setResult .ok⟩
  exact (hreg x).trans ((if_neg hx).trans (if_pos rfl))

/-- How the two subtractions end, each for its own order of the operands (R90, R92). -/
theorem State.complete_difference (s : State) (x : Nibble) (a b : Byte) :
    ∃ t, (s.setResultAndFlag x (a - b) (noBorrowFlag a b)).complete = .next t ∧ t.result = .ok ∧
      (x ≠ 0xF → ((t.reg x).toNat : Int) = (a.toNat - b.toNat : Int) % 256) ∧
      t.reg 0xF = (if b.toNat ≤ a.toNat then 1 else 0) ∧ s.ChangesOnly t { regs := [x, 0xF] } := by
  obtain ⟨t, hexec, hok, hreg, hflag, hframe⟩ := s.complete_setResultAndFlag x (a - b) (noBorrowFlag a b)
  refine ⟨t, hexec, hok, fun hx => ?_, hflag.trans (noBorrowFlag_eq a b), hframe⟩
  rw [hreg hx, toNat_sub_byte]

end Sys2Proof.Machine
end

section
/-! The statements of the family `42_alu.md`, settled. -/

namespace Sys2Proof.Machine

/-- Settles O22: the sum of two bytes wraps at 256 exactly where the carry is set. -/
theorem addWithCarry : Obligations.AddWithCarry := by
  intro s x y
  obtain ⟨t, hexec, hok, hreg, hflag, hframe⟩ :=
    s.complete_setResultAndFlag x (s.reg x + s.reg y) (carryFlag (s.reg x) (s.reg y))
  refine ⟨decodeWord_encode (.addReg x y), t, hexec, hok, fun hx => ?_, hflag.trans (carryFlag_eq _ _), hframe⟩
  rw [hreg hx, BitVec.toNat_add]

/-- Settles O23: the difference is `Vx - Vy` of the old values. -/
theorem subtractWithNoBorrow : Obligations.SubtractWithNoBorrow := fun s x y =>
  ⟨decodeWord_encode (.subReg x y), s.complete_difference x (s.reg x) (s.reg y)⟩

/-- Settles O24: the difference is `Vy - Vx` of the old values. -/
theorem reverseSubtract : Obligations.ReverseSubtract := fun s x y =>
  ⟨decodeWord_encode (.subnReg x y), s.complete_difference x (s.reg y) (s.reg x)⟩

/-- Settles O25: both shifts read the one source `compat` selects; the quotient and the product by 2 leave out the flag's bit. -/
theorem shiftsByOne : Obligations.ShiftsByOne := by
  intro s x y src hsrc
  obtain rfl : src = s.shiftSource x y := hsrc.trans (s.shiftSource_eq x y).symm
  refine ⟨decodeWord_encode (.shr x y), decodeWord_encode (.shl x y), ?_, ?_⟩
  · obtain ⟨t, hexec, hok, hreg, hflag, hframe⟩ :=
      s.complete_setResultAndFlag x (s.shiftSource x y >>> 1) (shiftRightFlag (s.shiftSource x y))
    refine ⟨t, hexec, hok, fun hx => ?_, by rw [hflag, toNat_shiftRightFlag], hframe⟩
    rw [hreg hx, BitVec.toNat_ushiftRight, Nat.shiftRight_eq_div_pow, pow_one]
  · obtain ⟨t, hexec, hok, hreg, hflag, hframe⟩ :=
      s.complete_setResultAndFlag x (s.shiftSource x y <<< 1) (shiftLeftFlag (s.shiftSource x y))
    refine ⟨t, hexec, hok, fun hx => ?_, by rw [hflag, toNat_shiftLeftFlag], hframe⟩
    rw [hreg hx, BitVec.toNat_shiftLeft, Nat.shiftLeft_eq, pow_one]

/-- Settles O20: each is one write of `Vx`. -/
theorem loadsAndImmediateAdd : Obligations.LoadsAndImmediateAdd := by
  refine ⟨fun s x nn => ⟨decodeWord_encode (.ldByte x nn), decodeWord_encode (.addByte x nn), ?_, ?_⟩,
    fun s x y => ⟨decodeWord_encode (.ldReg x y), ?_⟩⟩
  · exact ⟨_, rfl, rfl, s.reg_setReg_self x nn, s.changesOnly_setReg x nn .ok⟩
  · have hsum := congrArg BitVec.toNat (s.reg_setReg_self x (s.reg x + nn))
    exact ⟨_, rfl, rfl, hsum.trans (BitVec.toNat_add _ _), s.changesOnly_setReg x _ .ok⟩
  · exact ⟨_, rfl, rfl, s.reg_setReg_self x (s.reg y), s.changesOnly_setReg x _ .ok⟩

/-- Settles O21: each is one write of `Vx`, and the operations on bytes are those on their bits. -/
theorem logicOperations : Obligations.LogicOperations := by
  intro s x y
  have hbit (b : Byte) (i : Nat) : ((s.setReg x b).reg x).getLsbD i = b.getLsbD i := by rw [State.reg_setReg_self]
  refine ⟨decodeWord_encode (.orReg x y), decodeWord_encode (.andReg x y), decodeWord_encode (.xorReg x y), ?_, ?_, ?_⟩
  · exact ⟨_, rfl, rfl, fun i => (hbit _ i).trans BitVec.getLsbD_or, s.changesOnly_setReg x _ .ok⟩
  · exact ⟨_, rfl, rfl, fun i => (hbit _ i).trans BitVec.getLsbD_and, s.changesOnly_setReg x _ .ok⟩
  · exact ⟨_, rfl, rfl, fun i => (hbit _ i).trans BitVec.getLsbD_xor, s.changesOnly_setReg x _ .ok⟩

/-- Settles O26: the draw is counted, and then `Vx` is written with the masked answer. -/
theorem randomUnderMask : Obligations.RandomUnderMask := by
  intro s x nn
  have hreg := s.countDraw.reg_setReg_self x (Config.randomByte s.draws &&& nn)
  refine ⟨decodeWord_encode (.rnd x nn), _, rfl, rfl, fun i => ?_,
    ((s.changesOnly_countDraw rfl).setReg (List.mem_singleton_self x) _).setResult .ok⟩
  exact (congrArg (·.getLsbD i) hreg).trans BitVec.getLsbD_and

end Sys2Proof.Machine
end

section
/-! SUPPORT. The frame of a write of `ir`, of a store and of the loop of `Fx65`; the bytes and registers those leave; the digits
of `Fx33` and the flag of `Fx1E` as numbers; the memory transfers in range (R96 to R100). -/

namespace Sys2Proof.Machine

variable {s t : State} {f : Footprint}

theorem State.ChangesOnly.setIr (h : s.ChangesOnly t f) (hir : f.ir = true) (a : Word) : s.ChangesOnly (t.setIr a) f :=
  { h with ir := by simp [hir] }

theorem State.changesOnly_setIr (s : State) (a : Word) (r : Result) :
    s.ChangesOnly ((s.setIr a).setResult r) { ir := true } :=
  ((s.changesOnly_refl rfl).setIr rfl a).setResult r

theorem State.ChangesOnly.setByte (h : s.ChangesOnly t f) {a : Nat}
    (ha : f.bytes.1 ≤ a ∧ a < f.bytes.1 + f.bytes.2) (b : Byte) : s.ChangesOnly (t.setByte a b) f :=
  { h with
    bytes := fun c hc => by
      have hne : c ≠ a := fun e => hc (e ▸ ha)
      rw [State.byteAt_setByte, if_neg hne, h.bytes c hc] }

/-- A store inside the footprint's range keeps the footprint. -/
theorem State.ChangesOnly.storeBytes (h : s.ChangesOnly t f) {a : Nat} {bytes : List Byte} (hlow : f.bytes.1 ≤ a)
    (hhigh : a + bytes.length ≤ f.bytes.1 + f.bytes.2) : s.ChangesOnly (t.storeBytes a bytes) f := by
  induction bytes generalizing t a with
  | nil => exact h
  | cons b rest ih =>
    rw [List.length_cons] at hhigh
    exact ih (h.setByte ⟨hlow, by omega⟩ b) (by omega) (by omega)

theorem State.changesOnly_storeBytes (s : State) (a : Nat) (bytes : List Byte) (r : Result) :
    s.ChangesOnly ((s.storeBytes a bytes).setResult r) { bytes := (a, bytes.length) } :=
  ((s.changesOnly_refl (f := { bytes := (a, bytes.length) }) rfl).storeBytes le_rfl le_rfl).setResult r

/-- The loop of `Fx65`, with every register it writes in the footprint. -/
theorem State.ChangesOnly.setRegs (h : s.ChangesOnly t f) {i : Nat} {bytes : List Byte}
    (hregs : ∀ k, i ≤ k → k < i + bytes.length → BitVec.ofNat 4 k ∈ f.regs) : s.ChangesOnly (t.setRegs i bytes) f := by
  induction bytes generalizing t i with
  | nil => exact h
  | cons b rest ih =>
    rw [List.length_cons] at hregs
    exact ih (h.setReg (hregs i le_rfl (by omega)) b) (fun k hlow hhigh => hregs k (by omega) (by omega))

theorem State.byteAt_storeBytes_add (s : State) (a : Nat) {bytes : List Byte} {k : Nat} (hk : k < bytes.length) :
    (s.storeBytes a bytes).byteAt (a + k) = bytes.getD k 0 := by
  rw [State.byteAt_storeBytes, if_pos (by omega), Nat.add_sub_cancel_left]

theorem State.getD_bytesFrom (s : State) (a : Nat) {n i : Nat} (h : i < n) : (s.bytesFrom a n).getD i 0 = s.byteAt (a + i) := by
  rw [List.getD_eq_getElem?_getD, State.getElem?_bytesFrom, if_pos h, Option.getD_some]

theorem State.reg_setRegs_bytesFrom (s : State) (a : Nat) (x i : Nibble) :
    (s.setRegs 0 (s.bytesFrom a (x.toNat + 1))).reg i = if i.toNat ≤ x.toNat then s.byteAt (a + i.toNat) else s.reg i := by
  have hx := x.isLt
  rw [State.reg_setRegs _ _ _ (by rw [State.length_bytesFrom]; omega), State.length_bytesFrom]
  by_cases hi : i.toNat ≤ x.toNat
  · rw [if_pos (by omega), if_pos hi, Nat.sub_zero, s.getD_bytesFrom a (by omega)]
  · rw [if_neg (by omega), if_neg hi]

/-- The digits lose nothing as bytes. -/
theorem toNat_getD_bcdDigits (v : Byte) :
    ((bcdDigits v).getD 0 0).toNat = v.toNat / 100 ∧ ((bcdDigits v).getD 1 0).toNat = v.toNat / 10 % 10 ∧
      ((bcdDigits v).getD 2 0).toNat = v.toNat % 10 := by
  have hv := v.isLt
  refine ⟨Nat.mod_eq_of_lt ?_, Nat.mod_eq_of_lt ?_, Nat.mod_eq_of_lt ?_⟩ <;> omega

theorem indexOverflowFlag_eq (policy : Fx1eVfPolicy) (r : Word) (old : Byte) :
    indexOverflowFlag policy r old = if 0xFFF < r.toNat then 1 else if policy = .clearOnNoOverflow then 0 else old := by
  cases policy <;> rfl

theorem exec_ldBcd_of_le (x : Nibble) (h : s.ir.toNat + 2 ≤ 0xFFF) :
    exec (.ldBcd x) s = .next ((s.storeBytes s.ir.toNat (bcdDigits (s.reg x))).setResult .ok) := by
  rw [exec, execLdBcd_eq, if_pos (by omega)]; rfl

theorem exec_loadRegs_of_le (x : Nibble) (h : s.ir.toNat + x.toNat ≤ 0xFFF) :
    exec (.loadRegs x) s = .next ((s.setRegs 0 (s.bytesFrom s.ir.toNat (x.toNat + 1))).setResult .ok) := by
  rw [exec, execLoadRegs_eq, if_pos (by omega)]; rfl

end Sys2Proof.Machine
end

section
/-! The statements of the family `43_index_memory.md`, settled. -/

namespace Sys2Proof.Machine

/-- Settles O28: the sum goes to `ir` and its flag to `VF`, both of the old values. -/
theorem indexAdd : Obligations.IndexAdd := by
  intro s x
  have hflag := (s.setIr (s.indexSum x)).reg_setFlag 0xF
    (indexOverflowFlag s.config.fx1eVfPolicy (s.indexSum x) (s.reg 0xF))
  refine ⟨decodeWord_encode (.addI x), _, rfl, rfl, s.toNat_indexSum x, ?_,
    (((s.changesOnly_refl rfl).setIr rfl _).setReg (List.mem_singleton_self 0xF) _).setResult .ok⟩
  exact (hflag.trans (if_pos rfl)).trans (indexOverflowFlag_eq _ _ _)

/-- Settles O29: the digits are stored with the last of the three addresses in range, and otherwise the access faults. -/
theorem storeDecimalDigits : Obligations.StoreDecimalDigits := by
  intro s x
  refine ⟨decodeWord_encode (.ldBcd x), fun hin => ?_, fun hout => ?_⟩
  · have hbyte (k : Nat) (hk : k < 3) := s.byteAt_storeBytes_add s.ir.toNat (bytes := bcdDigits (s.reg x)) hk
    obtain ⟨hundreds, tens, units⟩ := toNat_getD_bcdDigits (s.reg x)
    exact ⟨_, exec_ldBcd_of_le x hin, rfl, (congrArg BitVec.toNat (hbyte 0 (by omega))).trans hundreds,
      (congrArg BitVec.toNat (hbyte 1 (by omega))).trans tens, (congrArg BitVec.toNat (hbyte 2 (by omega))).trans units,
      s.changesOnly_storeBytes s.ir.toNat (bcdDigits (s.reg x)) .ok⟩
  · rw [exec, execLdBcd_eq, if_neg (by omega)]

/-- Settles O30: `V0` to `Vx` are stored with the last address in range, and otherwise the access faults. -/
theorem storeRegisters : Obligations.StoreRegisters := by
  intro s x
  refine ⟨decodeWord_encode (.storeRegs x), fun hin => ?_, fun hout => ?_⟩
  · have hframe := s.changesOnly_storeBytes s.ir.toNat (s.regsUpTo x) .ok
    rw [State.length_regsUpTo] at hframe
    exact ⟨_, exec_storeRegs_of_le x hin, rfl, fun i hi => s.byteAt_storeBytes_regsUpTo s.ir.toNat hi, hframe⟩
  · rw [exec, execStoreRegs_eq, if_neg (by omega)]

/-- Settles O31: `V0` to `Vx` are loaded with the last address in range, and otherwise the access faults. -/
theorem loadRegisters : Obligations.LoadRegisters := by
  intro s x
  refine ⟨decodeWord_encode (.loadRegs x), fun hin => ?_, fun hout => ?_⟩
  · refine ⟨_, exec_loadRegs_of_le x hin, rfl, fun i => s.reg_setRegs_bytesFrom s.ir.toNat x i,
      ((s.changesOnly_refl rfl).setRegs fun k _ hk => ?_).setResult .ok⟩
    rw [State.length_bytesFrom, Nat.zero_add] at hk
    exact List.mem_map_of_mem (List.mem_range.mpr hk)
  · rw [exec, execLoadRegs_eq, if_neg (by omega)]

/-- Settles O27: each is one write of `ir`. -/
theorem indexLoads : Obligations.IndexLoads :=
  ⟨fun s nnn => ⟨decodeWord_encode (.ldI nnn), _, rfl, rfl, toNat_addrOperand nnn, s.changesOnly_setIr _ .ok⟩,
    fun s x => ⟨decodeWord_encode (.ldFont x), _, rfl, rfl, toNat_glyphAddress (s.reg x), s.changesOnly_setIr _ .ok⟩⟩

end Sys2Proof.Machine
end

section
/-! SUPPORT. The frame of a write of the framebuffer; the state that `Dxyn` leaves when it completes, and what a second draw from
there does (R104, R105). -/

namespace Sys2Proof.Machine

theorem State.ChangesOnly.setFb {s t : State} {f : Footprint} (h : s.ChangesOnly t f) (hfb : f.fb = true)
    (fb : Framebuffer) : s.ChangesOnly (t.setFb fb) f :=
  { h with fb := by simp [hfb] }

theorem flagOf_eq_zero (c : Bool) : flagOf c = 0 ↔ c = false := by cases c <;> decide

theorem bit_ne_one_iff (p : BitVec 1) : p ≠ 1 ↔ p = 0 := by decide +revert

theorem toggle_bit_ne (p : BitVec 1) : 1 - p ≠ p := by decide +revert

/-- The state that `Dxyn` leaves when every row on the screen is in memory. -/
def State.afterDraw (s : State) (x y n : Nibble) : State :=
  ((s.setFb (s.drawn x y n).fb).setFlag (flagOf (s.drawn x y n).hit)).setResult .ok

theorem exec_drw_eq (s : State) (x y n : Nibble) :
    exec (.drw x y n) s =
      if s.spriteRows y n = 0 ∨ s.ir.toNat + s.spriteRows y n ≤ 0x1000 then .next (s.afterDraw x y n)
      else .fault (.memoryOutOfRange (max s.ir.toNat 0x1000) .read) := execDrw_eq s x y n

variable (s : State) (x y n : Nibble)

theorem State.changesOnly_afterDraw : s.ChangesOnly (s.afterDraw x y n) { regs := [0xF], fb := true } :=
  (((s.changesOnly_refl rfl).setFb rfl _).setReg (List.mem_singleton_self 0xF) _).setResult .ok

theorem State.reg_afterDraw_of_ne {r : Nibble} (hr : r ≠ 0xF) : (s.afterDraw x y n).reg r = s.reg r :=
  (s.changesOnly_afterDraw x y n).regs r (by simpa using hr)

theorem State.flag_afterDraw : (s.afterDraw x y n).reg 0xF = flagOf (s.drawn x y n).hit :=
  (State.reg_setFlag _ _ _).trans (if_pos rfl)

theorem State.pixel_afterDraw {cx cy : Nat} (hcx : cx < s.width) (hcy : cy < s.height) :
    (s.afterDraw x y n).pixel cx cy = if s.spriteBit x y n cx cy then 1 - s.pixel cx cy else s.pixel cx cy :=
  (s.drawn_spec x y n).1 cx cy hcx hcy

theorem State.flag_afterDraw_eq_one_iff :
    (s.afterDraw x y n).reg 0xF = 1 ↔
      ∃ cx cy, cx < s.width ∧ cy < s.height ∧ s.spriteBit x y n cx cy = true ∧ s.pixel cx cy = 1 := by
  rw [State.flag_afterDraw, flagOf_eq_one]
  exact (s.drawn_spec x y n).2

theorem State.flag_afterDraw_eq_zero_iff :
    (s.afterDraw x y n).reg 0xF = 0 ↔
      ∀ cx cy, cx < s.width → cy < s.height → s.spriteBit x y n cx cy = true → s.pixel cx cy = 0 := by
  rw [State.flag_afterDraw, flagOf_eq_zero, ← Bool.not_eq_true, (s.drawn_spec x y n).2]
  simp only [not_exists, not_and, ← bit_ne_one_iff]

theorem State.pixel_afterDraw_eq_iff {cx cy : Nat} (hcx : cx < s.width) (hcy : cy < s.height) :
    (s.afterDraw x y n).pixel cx cy = s.pixel cx cy ↔ s.spriteBit x y n cx cy = false := by
  rw [s.pixel_afterDraw x y n hcx hcy]
  cases s.spriteBit x y n cx cy with
  | false => simp
  | true => simpa using toggle_bit_ne (s.pixel cx cy)

/-- The pixels of the sprite that are on after a draw are those that it turned on. -/
theorem State.turnedOn_afterDraw_iff {cx cy : Nat} (hcx : cx < s.width) (hcy : cy < s.height) :
    s.spriteBit x y n cx cy = true ∧ (s.afterDraw x y n).pixel cx cy = 1 ↔
      s.pixel cx cy = 0 ∧ (s.afterDraw x y n).pixel cx cy = 1 := by
  rw [s.pixel_afterDraw x y n hcx hcy]
  cases s.spriteBit x y n cx cy with
  | false => simp +contextual
  | true => simp

variable {x y}

/-! With `x` and `y` not F, a draw moves no sprite (R105). -/

theorem State.spriteRows_afterDraw (hy : y ≠ 0xF) : (s.afterDraw x y n).spriteRows y n = s.spriteRows y n := by
  rw [State.spriteRows, State.spriteRow, s.reg_afterDraw_of_ne x y n hy]; rfl

theorem State.spriteBit_afterDraw (hx : x ≠ 0xF) (hy : y ≠ 0xF) (cx cy : Nat) :
    (s.afterDraw x y n).spriteBit x y n cx cy = s.spriteBit x y n cx cy := by
  rw [State.spriteBit, s.reg_afterDraw_of_ne x y n hx, s.reg_afterDraw_of_ne x y n hy]; rfl

/-- A second draw toggles each pixel of the sprite back. -/
theorem State.pixel_afterDraw_afterDraw (hx : x ≠ 0xF) (hy : y ≠ 0xF) {cx cy : Nat} (hcx : cx < s.width)
    (hcy : cy < s.height) : ((s.afterDraw x y n).afterDraw x y n).pixel cx cy = s.pixel cx cy := by
  rw [(s.afterDraw x y n).pixel_afterDraw x y n hcx hcy, s.spriteBit_afterDraw n hx hy, s.pixel_afterDraw x y n hcx hcy]
  cases s.spriteBit x y n cx cy with
  | false => rfl
  | true => exact sub_sub_cancel 1 _

/-- A second draw collides with the pixels that the first turned on. -/
theorem State.flag_afterDraw_afterDraw (hx : x ≠ 0xF) (hy : y ≠ 0xF) :
    ((s.afterDraw x y n).afterDraw x y n).reg 0xF = 1 ↔
      ∃ cx cy, cx < s.width ∧ cy < s.height ∧ s.pixel cx cy = 0 ∧ (s.afterDraw x y n).pixel cx cy = 1 := by
  rw [State.flag_afterDraw_eq_one_iff]
  refine exists_congr fun cx => exists_congr fun cy => and_congr_right fun hcx => and_congr_right fun hcy => ?_
  rw [s.spriteBit_afterDraw n hx hy]
  exact s.turnedOn_afterDraw_iff x y n hcx hcy

end Sys2Proof.Machine
end

section
/-! The statements of the family `44_display.md`, settled. -/

namespace Sys2Proof.Machine

/-- Settles O34: the rows on the screen are in memory, and the canvas is drawn, or one of them is not. -/
theorem drawXorsTheSprite : Obligations.DrawXorsTheSprite := by
  intro s x y n rows hrows
  obtain rfl : rows = s.spriteRows y n := hrows
  refine ⟨decodeWord_encode (.drw x y n), fun hin => ⟨s.afterDraw x y n, ?_, rfl, fun _ _ => s.pixel_afterDraw x y n,
    (s.flag_afterDraw_eq_one_iff x y n).mpr, (s.flag_afterDraw_eq_zero_iff x y n).mpr, s.changesOnly_afterDraw x y n⟩,
    fun hpos hout => ?_⟩
  · rw [exec_drw_eq, if_pos hin.symm]
  · rw [exec_drw_eq, if_neg (by omega)]

/-- Settles O35: the first draw keeps what the second reads besides the framebuffer, so both toggle the same pixels. -/
theorem doubleDrawRestores : Obligations.DoubleDrawRestores := by
  intro s t x y n hx hy hdraw
  rw [exec, execDrw_eq] at hdraw
  obtain ⟨hin, rfl⟩ := State.of_complete_else_fault hdraw
  refine ⟨(s.afterDraw x y n).afterDraw x y n, ?_, fun cx cy hcx hcy => ?_, s.flag_afterDraw_afterDraw n hx hy⟩
  · rw [← s.spriteRows_afterDraw (x := x) n hy] at hin
    exact (exec_drw_eq (s.afterDraw x y n) x y n).trans (if_pos hin)
  · exact ⟨s.pixel_afterDraw_afterDraw n hx hy hcx hcy, s.pixel_afterDraw_eq_iff x y n hcx hcy⟩

/-- Settles O33: the cleared framebuffer holds no cell, and a pixel without a cell is off. -/
theorem clearScreen : Obligations.ClearScreen :=
  ⟨decodeWord_encode .cls, fun s => ⟨_, rfl, rfl, fun _ _ => rfl, ((s.changesOnly_refl rfl).setFb rfl []).setResult .ok⟩⟩

end Sys2Proof.Machine
end

section
/-! SUPPORT. The frame of a transition that begins with a draw, and of a write of a timer; how the key skips end, and what `Fx0A`
leaves for each answer (R107 to R113). -/

namespace Sys2Proof.Machine

variable {s t : State} {f : Footprint}

/-- What changes after a draw is counted, and the draw, is what changes in all. -/
theorem State.ChangesOnly.of_countDraw (h : s.countDraw.ChangesOnly t f) (hdraw : f.draw = false) :
    s.ChangesOnly t { f with draw := true } :=
  { h with draws := by simp [h.draws, hdraw] }

theorem State.ChangesOnly.setDelay (h : s.ChangesOnly t f) (hdelay : f.delay = true) (b : Byte) :
    s.ChangesOnly (t.setDelay b) f :=
  { h with delay := by simp [hdelay] }

theorem State.ChangesOnly.setSound (h : s.ChangesOnly t f) (hsound : f.sound = true) (b : Byte) :
    s.ChangesOnly (t.setSound b) f :=
  { h with sound := by simp [hsound] }

/-- How `Ex9E` ends, for the host's answer. -/
theorem State.complete_countDraw_skipIf (s : State) (down : Bool) :
    ∃ t, (s.countDraw.skipIf down).complete = .next t ∧ t.result = .ok ∧
      t.pc = (if down = true then s.pc + 2 else s.pc) ∧ s.ChangesOnly t { pc := true, draw := true } := by
  obtain ⟨t, hexec, hok, hpc, hframe⟩ := s.countDraw.complete_skipIf (down = true)
  rw [Bool.decide_eq_true] at hexec
  exact ⟨t, hexec, hok, hpc, hframe.of_countDraw rfl⟩

/-- How `ExA1` ends: the skip for the opposite answer. -/
theorem State.complete_countDraw_skipIf_not (s : State) (down : Bool) :
    ∃ t, (s.countDraw.skipIf (!down)).complete = .next t ∧ t.result = .ok ∧
      t.pc = (if down = true then s.pc else s.pc + 2) ∧ s.ChangesOnly t { pc := true, draw := true } := by
  cases down with
  | false => exact s.complete_countDraw_skipIf true
  | true => exact s.complete_countDraw_skipIf false

/-- The state that `Fx0A` leaves, given the host's answer. -/
def State.afterKey (s : State) (x : Nibble) (answer : Option Nibble) : State :=
  (s.countDraw.awaitKey x answer).setResult .ok

theorem exec_ldKey_eq (s : State) (x : Nibble) :
    exec (.ldKey x) s = .next (s.afterKey x (Config.pressedKey s.draws)) := rfl

theorem State.Fetches.step_ldKey {x : Nibble} (h : s.Fetches (encode (.ldKey x))) :
    step s = .next ((s.setPc (s.pc + 2)).afterKey x (Config.pressedKey s.draws)) :=
  stepRunsTheDecodedInstruction s _ _ h (decodeWord_encode (.ldKey x))

variable (s) (x : Nibble)

theorem State.toNat_reg_afterKey_some (k : Nibble) : ((s.afterKey x (some k)).reg x).toNat = k.toNat := by
  have hreg := s.countDraw.reg_setReg_self x (keyValue k)
  exact (congrArg BitVec.toNat hreg).trans (toNat_keyValue k)

theorem State.changesOnly_afterKey_some (k : Nibble) :
    s.ChangesOnly (s.afterKey x (some k)) { regs := [x], draw := true } :=
  (s.countDraw.changesOnly_setReg x (keyValue k) .ok).of_countDraw rfl

theorem State.changesOnly_afterKey_none : s.ChangesOnly (s.afterKey x none) { pc := true, draw := true } :=
  (s.countDraw.changesOnly_setPc (s.pc - 2) .ok).of_countDraw rfl

/-- The fetch advance and the way back cancel, whatever `pc` is (R110). -/
theorem State.afterKey_none_setPc :
    (s.setPc (s.pc + 2)).afterKey x none = { s with result := .ok, draws := s.draws + 1 } := by
  have hpc : s.pc + 2 - 2 = s.pc := add_sub_cancel_right s.pc 2
  change { s with pc := s.pc + 2 - 2, result := .ok, draws := s.draws + 1 } = _
  rw [hpc]

end Sys2Proof.Machine
end

section
/-! The statements of the family `45_timers_keys.md`, settled. -/

namespace Sys2Proof.Machine

/-- Settles O37: the answer's two cases, for the instruction alone and for a Step, where the fetch has advanced `pc`. -/
theorem keyWait : Obligations.KeyWait := by
  intro s x
  refine ⟨decodeWord_encode (.ldKey x), ⟨_, exec_ldKey_eq s x, rfl, ?_⟩, fun hfetch => ⟨_, hfetch.step_ldKey, ?_⟩⟩
  · cases Config.pressedKey s.draws with
    | some k => exact ⟨s.toNat_reg_afterKey_some x k, s.changesOnly_afterKey_some x k⟩
    | none => exact ⟨rfl, s.changesOnly_afterKey_none x⟩
  · cases Config.pressedKey s.draws with
    | some k => exact ⟨rfl, (s.setPc (s.pc + 2)).toNat_reg_afterKey_some x k⟩
    | none => exact s.afterKey_none_setPc x

/-- Settles O36: in range, the two instructions are one skip and its opposite, on the one answer; above it, both fault. -/
theorem keySkips : Obligations.KeySkips := by
  intro s x
  refine ⟨decodeWord_encode (.skp x), decodeWord_encode (.sknp x), fun hin => ⟨?_, ?_⟩, fun hout => ⟨?_, ?_⟩⟩
  · rw [exec, execSkp_eq, if_pos hin]
    exact s.complete_countDraw_skipIf _
  · rw [exec, execSknp_eq, if_pos hin]
    exact s.complete_countDraw_skipIf_not _
  · rw [exec, execSkp_eq, if_neg (by omega)]
  · rw [exec, execSknp_eq, if_neg (by omega)]

/-- Settles O38: each is one write, of `Vx` or of a timer. -/
theorem timerTransfers : Obligations.TimerTransfers := by
  intro s x
  refine ⟨decodeWord_encode (.ldRegDelay x), decodeWord_encode (.ldDelay x), decodeWord_encode (.ldSound x), ?_, ?_, ?_⟩
  · exact ⟨_, rfl, rfl, s.reg_setReg_self x s.delayTimer, s.changesOnly_setReg x _ .ok⟩
  · exact ⟨_, rfl, rfl, rfl, ((s.changesOnly_refl rfl).setDelay rfl (s.reg x)).setResult .ok⟩
  · exact ⟨_, rfl, rfl, rfl, ((s.changesOnly_refl rfl).setSound rfl (s.reg x)).setResult .ok⟩

end Sys2Proof.Machine
end

section
/-! SUPPORT. The errors and the faults of an instruction and of a Step, each with its cause (R116, R117, R120), and the
transactions of the host on a faulted state and on one with no fault (R121). -/

namespace Sys2Proof.Machine

variable {s t : State} {i : Instr} {f : Fault}

/-! ## Errors -/

/-- An instruction that returns an error has written nothing else: it is a return on an empty stack or a call on a full one. -/
theorem State.Leaves.err_cases {k : ErrKind} (h : s.Leaves i t) (hk : t.result = .err k) :
    t = s.setResult (.err k) ∧
      ((k = .capacityExceeded ∧ ¬ s.sp.val < Config.stackCapacity ∧ ∃ nnn, i = .call nnn) ∨
       (k = .stackEmpty ∧ s.sp.val = 0 ∧ i = .ret)) := by
  cases h with
  | retEmpty hsp => cases hk; exact ⟨rfl, .inr ⟨rfl, hsp, rfl⟩⟩
  | callFull nnn hsp => cases hk; exact ⟨rfl, .inl ⟨rfl, hsp, nnn, rfl⟩⟩
  | _ => simp at hk

/-! ## Faults -/

/-- The faults that instruction `i` can raise, run from `s`, each with the access or the key that is out of range. -/
inductive State.Raises (s : State) : Instr → Fault → Prop where
  /-- `Dxyn` with a row on the screen above 0xFFF (R104). -/
  | draw (x y n : Nibble) (hrows : s.spriteRows y n ≠ 0) (hout : 0x1000 < s.ir.toNat + s.spriteRows y n) :
      s.Raises (.drw x y n) (.memoryOutOfRange (max s.ir.toNat 0x1000) .read)
  /-- `Fx65` (R100). -/
  | loadRegs (x : Nibble) (hout : 0xFFF < s.ir.toNat + x.toNat) :
      s.Raises (.loadRegs x) (.memoryOutOfRange (max s.ir.toNat 0x1000) .read)
  /-- `Fx33` (R98). -/
  | ldBcd (x : Nibble) (hout : 0xFFF < s.ir.toNat + 2) :
      s.Raises (.ldBcd x) (.memoryOutOfRange (max s.ir.toNat 0x1000) .write)
  /-- `Fx55` (R99). -/
  | storeRegs (x : Nibble) (hout : 0xFFF < s.ir.toNat + x.toNat) :
      s.Raises (.storeRegs x) (.memoryOutOfRange (max s.ir.toNat 0x1000) .write)
  /-- `Ex9E`, `ExA1` (R107). -/
  | key {i : Instr} (x : Nibble) (hi : i = .skp x ∨ i = .sknp x) (hout : 0xF < (s.reg x).toNat) :
      s.Raises i (.keyIndexOutOfRange (s.reg x))

/-- Complete or fault: a fault means the second. -/
theorem State.of_complete_else_fault_eq_fault {c : Prop} [Decidable c] {u : State} {f g : Fault}
    (h : (if c then u.complete else .fault g) = .fault f) : ¬ c ∧ f = g := by
  by_cases hc : c
  · rw [if_pos hc] at h; cases h
  · rw [if_neg hc] at h; cases h; exact ⟨hc, rfl⟩

theorem execRet_ne_fault (s : State) (f : Fault) : execRet s ≠ .fault f := by
  intro h
  rw [execRet] at h
  split at h <;> cases h

theorem execCall_ne_fault (nnn : Addr) (s : State) (f : Fault) : execCall nnn s ≠ .fault f := by
  intro h
  rw [execCall] at h
  split at h <;> cases h

/-- Whatever fault an instruction raises is one of the named ones. -/
theorem exec_raises (h : exec i s = .fault f) : s.Raises i f := by
  cases i with
  | ret => exact absurd h (execRet_ne_fault s f)
  | call nnn => exact absurd h (execCall_ne_fault nnn s f)
  | drw x y n =>
    rw [exec, execDrw_eq] at h
    obtain ⟨hr, rfl⟩ := State.of_complete_else_fault_eq_fault h
    exact .draw x y n (by omega) (by omega)
  | skp x =>
    rw [exec, execSkp_eq] at h
    obtain ⟨hr, rfl⟩ := State.of_complete_else_fault_eq_fault h
    exact .key x (.inl rfl) (by omega)
  | sknp x =>
    rw [exec, execSknp_eq] at h
    obtain ⟨hr, rfl⟩ := State.of_complete_else_fault_eq_fault h
    exact .key x (.inr rfl) (by omega)
  | ldBcd x =>
    rw [exec, execLdBcd_eq] at h
    obtain ⟨hr, rfl⟩ := State.of_complete_else_fault_eq_fault h
    exact .ldBcd x (by omega)
  | storeRegs x =>
    rw [exec, execStoreRegs_eq] at h
    obtain ⟨hr, rfl⟩ := State.of_complete_else_fault_eq_fault h
    exact .storeRegs x (by omega)
  | loadRegs x =>
    rw [exec, execLoadRegs_eq] at h
    obtain ⟨hr, rfl⟩ := State.of_complete_else_fault_eq_fault h
    exact .loadRegs x (by omega)
  | _ => cases h

/-- A Step that faults did so in the fetch, or in the instruction it ran; the mark was not set. -/
theorem step_fault_cases (h : step s = .fault f) :
    s.fault = none ∧ ((f = .fetchOutOfRange s.pc ∧ 0xFFE < s.pc.toNat) ∨
      ∃ i, decodeWord (s.wordAt s.pc.toNat) = .ok i ∧ (s.setPc (s.pc + 2)).Raises i f) := by
  obtain ⟨_, _, he⟩ | ⟨hf, hp, he⟩ | ⟨_, _, _, he⟩ | ⟨hf, _, i, hd, he⟩ := step_cases s
  · rw [he] at h; cases h
  · rw [he] at h; cases h; exact ⟨hf, .inl ⟨rfl, hp⟩⟩
  · rw [he] at h; cases h
  · rw [he] at h; exact ⟨hf, .inr ⟨i, hd, exec_raises h⟩⟩

/-- Rows on the screen that end above memory: the last of them is above 0xFFF (R104). -/
theorem State.exists_row_out_of_range {y n : Nibble} (hrows : s.spriteRows y n ≠ 0)
    (hout : 0x1000 < s.ir.toNat + s.spriteRows y n) :
    ∃ r, r < n.toNat ∧ (s.reg y).toNat % s.height + r < s.height ∧ 0xFFF < s.ir.toNat + r := by
  simp only [State.spriteRows, State.spriteRow] at hrows hout
  exact ⟨min n.toNat (s.height - (s.reg y).toNat % s.height) - 1, by omega, by omega, by omega⟩

/-! ## The host's transactions -/

theorem step_of_faulted (hf : s.fault = some f) : step s = .refused .faulted := by
  obtain ⟨_, _, hstep⟩ | ⟨hf', _⟩ | ⟨hf', _⟩ | ⟨hf', _⟩ := step_cases s
  · exact hstep
  · cases hf.symm.trans hf'
  · cases hf.symm.trans hf'
  · cases hf.symm.trans hf'

theorem issue_of_faulted {tr : Transaction} (hf : s.fault = some f) (hinit : ∀ cfg, tr ≠ .init cfg) :
    issue tr s = .error .faulted := by
  cases tr with
  | init cfg => exact absurd rfl (hinit cfg)
  | _ => simp only [issue, hf]

theorem issue_init (s : State) (cfg : Config) : issue (.init cfg) s = .ok (s.initAfter cfg) := rfl

theorem issue_tick (hf : s.fault = none) : issue .tick s = .ok s.tick := by simp only [issue, hf]

theorem issue_setHalted (hf : s.fault = none) (b : Bool) : issue (.setHalted b) s = .ok (s.setHalted b) := by
  simp only [issue, hf]

theorem hostIssue_step_of_halted (h : s.halted = true) : hostIssue .step s = .error .stepWhileHalted := by
  rw [hostIssue, if_pos ⟨rfl, h⟩]

theorem hostIssue_of_not_halted (tr : Transaction) (h : s.halted = false) : hostIssue tr s = issue tr s := by
  rw [hostIssue, if_neg (by simp [h])]

end Sys2Proof.Machine
end

section
/-! The statements of the family `60_exceptions.md`, settled. -/

namespace Sys2Proof.Machine

/-- Settles O8: the word is undecodable, or an instruction ran from the fetch advance and its inversion names the two errors. -/
theorem errStepKeepsAllButPc : Obligations.ErrStepKeepsAllButPc := by
  intro s t k h hk
  obtain ⟨_, _, he⟩ | ⟨_, _, he⟩ | ⟨_, _, hd, he⟩ | ⟨_, _, i, hd, he⟩ := step_cases s
  · rw [he] at h; cases h
  · rw [he] at h; cases h
  · rw [he] at h; cases h; cases hk
    exact ⟨rfl, .inl ⟨rfl, hd⟩⟩
  · rw [he] at h
    obtain ⟨rfl, ⟨rfl, hsp, nnn, rfl⟩ | ⟨rfl, hsp, rfl⟩⟩ := (exec_leaves h).err_cases hk
    · have hfull : s.sp.val = 1000 := Nat.eq_of_lt_succ_of_not_lt s.sp.isLt hsp
      exact ⟨rfl, .inr (.inl ⟨rfl, hfull, nnn, hd⟩)⟩
    · exact ⟨rfl, .inr (.inr ⟨rfl, hsp, hd⟩)⟩

/-- Settles O9: the fetch is out of range, or the instruction raises one of its faults, from a state with only `pc` advanced. -/
theorem faultStepWritesOnlyTheMark : Obligations.FaultStepWritesOnlyTheMark := by
  intro s f h
  obtain ⟨hf, hcases⟩ := step_fault_cases h
  refine ⟨issue_step_of_fault hf h, hcases.imp_right fun ⟨i, hd, hraises⟩ => ⟨i, hd, ?_⟩⟩
  cases hraises with
  | draw x y n hrows hout => exact .inl ⟨rfl, .inl ⟨x, y, n, rfl, s.exists_row_out_of_range hrows hout⟩⟩
  | loadRegs x hout => exact .inl ⟨rfl, .inr ⟨x, rfl, hout⟩⟩
  | ldBcd x hout => exact .inr (.inl ⟨rfl, .inl ⟨x, rfl, hout⟩⟩)
  | storeRegs x hout => exact .inr (.inl ⟨rfl, .inr ⟨x, rfl, hout⟩⟩)
  | key x hi hout => exact .inr (.inr ⟨x, hi, rfl, hout⟩)

/-- Settles O10: the mark refuses a Step and each transaction but `Init`, which makes a state with no mark. -/
theorem faultedStateIsStuck : Obligations.FaultedStateIsStuck :=
  fun s _ hf => ⟨step_of_faulted hf, fun _ => issue_of_faulted hf, fun cfg => ⟨s.initAfter cfg, issue_init s cfg, rfl⟩⟩

/-- Settles O12: the host's guard, for each value of `halted`. -/
theorem hostStepsOnlyWhenNotHalted : Obligations.HostStepsOnlyWhenNotHalted :=
  fun _ => ⟨hostIssue_step_of_halted, hostIssue_of_not_halted .step⟩

/-- Settles O53: `Tick` is the countdown of each timer. -/
theorem tickCountsDown : Obligations.TickCountsDown :=
  fun s hf => ⟨s.tick, issue_tick hf, toNat_countdown s.delayTimer, toNat_countdown s.soundTimer, rfl⟩

/-- Settles O54: a Step keeps `halted`, faulting or not, and each other transaction but the three keeps it by what it writes. -/
theorem setHaltedWritesHalted : Obligations.SetHaltedWritesHalted := by
  refine ⟨fun s b hf => issue_setHalted hf b, fun tr s t h hne => ?_⟩
  cases issue_issues h with
  | init cfg => exact .inr (.inl ⟨cfg, rfl⟩)
  | clearState => exact .inl rfl
  | setHalted b => exact .inr (.inr ⟨b, rfl⟩)
  | stepNext _ hstep =>
    obtain ⟨_, hhalted, _⟩ := step_keeps_parameters hstep
    exact absurd hhalted hne
  | _ => simp at hne

end Sys2Proof.Machine
end

section
/-! SUPPORT. What `Init` and `ClearState` leave (R139 to R141), the loader's transactions, a case at a time (R142, R143), and the
ended run as a fetch of a jump to `pc` (R153). -/

namespace Sys2Proof.Machine

variable {s t : State}

/-! ## The transactions on a state with no fault -/

theorem issue_clearState (hf : s.fault = none) : issue .clearState s = .ok s.clearState := by simp only [issue, hf]

theorem issue_loadProgram (hf : s.fault = none) (bytes : List Byte) :
    issue (.loadProgram bytes) s = .ok (s.loadProgram bytes) := by simp only [issue, hf]

theorem issue_loadFont (hf : s.fault = none) (table : Option (List Byte)) :
    issue (.loadFont table) s = s.loadFont table := by simp only [issue, hf]

theorem issue_step_of_next (hf : s.fault = none) (hstep : step s = .next t) : issue .step s = .ok t := by
  simp only [issue, hf, State.stepTransaction, hstep]

theorem of_issue_clearState (h : issue .clearState s = .ok t) : s.fault = none ∧ t = s.clearState := by
  cases hf : s.fault with
  | some f =>
    rw [issue_of_faulted hf (by simp)] at h
    cases h
  | none =>
    cases issue_issues h with
    | clearState => exact ⟨rfl, rfl⟩

/-! ## `Init` and `ClearState` -/

theorem State.reg_init (cfg : Config) (r : Nibble) : (State.init cfg).reg r = 0 := Vector.getElem_replicate _

theorem State.clearState_eq_init (hf : s.fault = none) :
    s.clearState = { State.init s.config with mem := s.clearState.mem, draws := s.draws } :=
  congrArg (fun f => { s.clearState with fault := f }) hf

/-- The cells that a first `ClearState` keeps, a second keeps too (R141). -/
theorem State.clearState_clearState (s : State) : s.clearState.clearState = s.clearState := by
  have hmem : s.clearState.mem.filter (fun c => c.1 < Config.programBase) = s.clearState.mem := by
    rw [State.clearState, List.filter_filter]
    simp only [Bool.and_self]
  exact congrArg (fun m => { s.clearState with mem := m }) hmem

/-- The two bytes at 0x200 are among those that `ClearState` zeroes (R147). -/
theorem State.fetches_clearState (hf : s.fault = none) : s.clearState.Fetches 0x0000 := by
  have hhi : s.clearState.byteAt 0x200 = 0 := s.byteAt_clearState 0x200
  have hlo : s.clearState.byteAt 0x201 = 0 := s.byteAt_clearState 0x201
  exact ⟨hf, show (0x200 : Nat) ≤ 0xFFE by decide, congrArg₂ bigEndian hhi hlo⟩

theorem unrecognized_zero : Unrecognized 0x0000 := .inl (by decide)

/-! ## The loader -/

theorem State.loadProgram_of_not_fits {bytes : List Byte}
    (h : 0xE00 < bytes.length ∨ 0x1000 < s.pc.toNat + bytes.length) :
    s.loadProgram bytes = s.setResult (.err .capacityExceeded) := if_pos h

theorem State.loadProgram_of_fits {bytes : List Byte} (hlength : bytes.length ≤ 0xE00)
    (hend : s.pc.toNat + bytes.length ≤ 0x1000) :
    s.loadProgram bytes = (s.storeBytes s.pc.toNat bytes).setResult .ok :=
  if_neg (not_or.mpr ⟨hlength.not_gt, hend.not_gt⟩)

theorem State.byteAt_storeBytes_of_getElem? (s : State) (a : Nat) {bytes : List Byte} {i : Nat} {b : Byte}
    (h : bytes[i]? = some b) : (s.storeBytes a bytes).byteAt (a + i) = b := by
  obtain ⟨hi, _⟩ := List.getElem?_eq_some_iff.mp h
  rw [s.byteAt_storeBytes_add a hi, List.getD_eq_getElem?_getD, h, Option.getD_some]

/-! ## The end of a run -/

theorem State.ended_iff_fetches : s.ended = true ↔ s.Fetches (encode (.jp (s.pc.extractLsb' 0 12))) := by
  simp only [State.ended, Bool.and_eq_true, decide_eq_true_eq, and_assoc]
  rfl

/-- A `pc` in the fetch's range is its own low 12 bits, so a jump to these is a jump to it. -/
theorem addrOperand_extractLsb' {pc : Word} (h : pc.toNat ≤ 0xFFE) : addrOperand (pc.extractLsb' 0 12) = pc := by
  apply BitVec.eq_of_toNat_eq
  rw [toNat_addrOperand, BitVec.extractLsb'_toNat, Nat.shiftRight_zero, Nat.mod_eq_of_lt (by omega)]

end Sys2Proof.Machine
end

section
/-! The statements of the family `70_reset_and_hazards.md`, the words of the rules' examples and the invariant at reset,
settled. -/

namespace Sys2Proof.Machine

/-- Settles O46: the fetch advance is undone by the jump, whose target is `pc` itself. -/
theorem endedRunStays : Obligations.EndedRunStays := by
  intro s hended
  refine ⟨?_, hended⟩
  have hfetch := State.ended_iff_fetches.mp hended
  have ⟨_, hpc, _⟩ := hfetch
  rw [stepRunsTheDecodedInstruction s _ _ hfetch (decodeWord_encode _)]
  exact congrArg (fun a => (s.setPc a).complete) (addrOperand_extractLsb' hpc)

/-- Settles O50: the word fetched is zero, which is no instruction of family 0. -/
theorem firstStepAfterClear : Obligations.FirstStepAfterClear := by
  intro s t h
  obtain ⟨hf, rfl⟩ := of_issue_clearState h
  have hfetch := State.fetches_clearState hf
  have hstep := hfetch.step_of_error ⟨_, decodeWord_of_none ((decodeFamily_eq_none_iff _).mpr unrecognized_zero)⟩
  exact ⟨hfetch, issue_step_of_next (s := s.clearState) hf hstep⟩

/-- Settles O51: the two sides of the capacity checks; what passes them is one store at `pc`. -/
theorem loadProgramCopies : Obligations.LoadProgramCopies := by
  intro s bytes hf
  rw [issue_loadProgram hf]
  refine ⟨fun hlarge => ?_, fun hlength hend => ?_⟩
  · rw [State.loadProgram_of_not_fits hlarge]; rfl
  · rw [State.loadProgram_of_fits hlength hend]
    exact ⟨_, rfl, rfl, fun _ _ => s.byteAt_storeBytes_of_getElem? s.pc.toNat, s.changesOnly_storeBytes _ bytes .ok⟩

/-- Settles O52: the refusal, or one store at 0x50; the parameter's table has 80 bytes by its type. -/
theorem loadFontCopies : Obligations.LoadFontCopies := by
  intro s given table hf htable
  obtain rfl : table = s.fontTable given := htable
  rw [issue_loadFont hf]
  refine ⟨fun hnone => hnone ▸ s.length_fontTable_none, fun hlarge => ?_, fun hfits => ?_⟩
  · obtain ⟨_, _, hload⟩ | ⟨hfits, _⟩ := s.loadFont_cases given
    · exact hload
    · omega
  · obtain ⟨hlarge, _⟩ | ⟨_, hload⟩ := s.loadFont_cases given
    · omega
    · exact ⟨_, hload, rfl, fun _ _ => s.byteAt_storeBytes_of_getElem? 0x50, s.changesOnly_storeBytes 0x50 _ .ok⟩

/-- Settles O47: no cell is listed in memory, the stack or the framebuffer, and an unlisted one reads 0. -/
theorem initState : Obligations.InitState := fun s cfg =>
  ⟨s.initAfter cfg, issue_init s cfg, rfl, fun _ => rfl, State.reg_init cfg, rfl, rfl, fun _ => rfl, rfl, fun _ _ => rfl,
    rfl, rfl, rfl, rfl⟩

/-- Settles O48: the fields of `Init`, but for the cells of memory below 0x200. -/
theorem clearStateBaseline : Obligations.ClearStateBaseline := fun s hf =>
  ⟨s.clearState, issue_clearState hf, rfl, rfl, s.byteAt_clearState, State.reg_init s.config, rfl, rfl, fun _ => rfl, rfl,
    fun _ _ => rfl, rfl, rfl, rfl, hf⟩

/-- Settles O49: `ClearState` is `Init` with some cells of memory kept, and a second one keeps the same cells. -/
theorem clearStateIdempotent : Obligations.ClearStateIdempotent := by
  intro s t h
  obtain ⟨hf, rfl⟩ := of_issue_clearState h
  refine ⟨State.clearState_eq_init hf, s.byteAt_clearState, ?_⟩
  exact (issue_clearState (s := s.clearState) hf).trans (congrArg Except.ok s.clearState_clearState)

/-- Settles O4: each word is the encoding of its instruction. -/
theorem specWordsDecode : Obligations.SpecWordsDecode :=
  ⟨decodeWord_encode .cls, decodeWord_encode .ret, decodeWord_encode (.jp 0x234), decodeWord_encode (.call 0x050),
    decodeWord_encode (.seByte 0xA 0x2F), decodeWord_encode (.seReg 0x1 0x2), decodeWord_encode (.addReg 0x0 0x1),
    decodeWord_encode (.sneReg 0x1 0x2), decodeWord_encode (.ldI 0x300), decodeWord_encode (.jpOffset 0x2F0),
    decodeWord_encode (.rnd 0x3 0x0F), decodeWord_encode (.drw 0x0 0x1 0x5), decodeWord_encode (.skp 0x5),
    decodeWord_encode (.ldBcd 0xA)⟩

/-- Settles O43: reset is `Init` with the standard parameters, before any draw. -/
theorem resetMeetsTheInvariant : Obligations.ResetMeetsTheInvariant := State.reset.inv_initAfter Config.standard

end Sys2Proof.Machine
end
